-- ==== Sys2Proof/Word.lean ====
section
/-!
DEFINITION. The word types of the block: the fixed-width fields that spec/00_scope.md R8 writes `uN` and `iN`.
-/

namespace Sys2Proof

/-- `u8`: a written register byte (`DATA_W`, R6). -/
abbrev Byte := BitVec 8

/-- `u16`: a register address (`ADDR_W`, R6). -/
abbrev Addr := BitVec 16

/-- The 24-bit word of a register write, address above value (R43). -/
abbrev WrWord := BitVec 24

/-- `u32`: divider fields, counters and sample rates (`DIV_W`, R6; counters by D19). -/
abbrev U32 := BitVec 32

/-- `i32`: an output scale, read with `toInt` (R20). -/
abbrev I32 := BitVec 32

/-- `i16`: a sample that leaves the block, read with `toInt` (`SAMPLE_W`, R6, R29). -/
abbrev Sample := BitVec 16

end Sys2Proof
end

