-- ==== Sys2Proof/Config.lean ====
section
/-!
DEFINITION. The fixed parameters of spec/00_scope.md R6.
The spec leaves no parameter to the implementation and no value free, so nothing here is opaque.
-/

namespace Sys2Proof.Config

/-- `APU_EXP`: the internal tick rate is 2^20 Hz. -/
def apuExp : Nat := 20
/-- `SEQ_EXP`: the sequencer sub-clock, 512 Hz. -/
def seqExp : Nat := 9
/-- `SWEEP_EXP`: the sweep sub-clock, 128 Hz. -/
def sweepExp : Nat := 7
/-- `LEN_EXP`: the length sub-clock, 256 Hz. -/
def lenExp : Nat := 8
/-- `ENV_EXP`: the envelope sub-clock, 64 Hz. -/
def envExp : Nat := 6
/-- `FREQ_NUM`: the numerator of `frequency_hz`. -/
def freqNum : Nat := 131072
/-- `PHASE_BASE`: the duty phase period is `2048 − gbfreq`. -/
def phaseBase : Nat := 2048
/-- `GBFREQ_MAX`: the sweep overflow bound. -/
def gbfreqMax : Nat := 2047
/-- `LEN_BASE`: the length target is `64 − length`. -/
def lenBase : Nat := 64
/-- `AMP_MAX`: the envelope clamp. -/
def ampMax : Nat := 15
/-- `MIX_DIV`: the divisor of `mixer_next`. -/
def mixDiv : Int := 512
/-- `DIV_W`: the width of a Clock Divider's fields; a shift of this size or more is out of range (R58). -/
def divW : Nat := 32

/-- The ticks of one second, 2^20, which is also the largest admitted `sample_rate` (R6). -/
def tickRate : Nat := 2 ^ apuExp

end Sys2Proof.Config
end

