-- ==== Sys2Proof/Syntax.lean ====
section
/-!
DEFINITION. The operations of the block (spec/30_encoding.md R42): one constructor of `Instr` per row of
spec/opcode_table.json, and the terms of the host's operation stream that the decoder reads.
-/

namespace Sys2Proof

/-- The channels an operation can name (R10, R42). -/
inductive Channel
  | tone1
  | tone2
  | noise
deriving DecidableEq, Repr

/-- The owners of a `scale_amplitude` (R131). -/
inductive ScaleTarget
  | mixer
  | tone1
  | tone2
deriving DecidableEq, Repr

/-- The operations, decoded. An operand `ignored` holds the bits a register's format marks `x` (R45): the table lists
them as fields of the word, so the model keeps them, and no meaning reads them (R53; log entry 10). -/
inductive Instr
  /-- NR10, format SWEEP (R105); `addition` is already the inverse of bit 3 (R47). -/
  | nr10 (ignored : BitVec 1) (time : BitVec 3) (addition : Bool) (shift : BitVec 3)
  /-- NR11, format LENDUTY (R106). -/
  | nr11 (duty : BitVec 2) (length : BitVec 6)
  /-- NR12, format ENV (R107). -/
  | nr12 (initial : BitVec 4) (increase : Bool) (n : BitVec 3)
  /-- NR13, format FLO (R108). -/
  | nr13 (flo : BitVec 8)
  /-- NR14, format FHI (R109). -/
  | nr14 (trigger single : Bool) (ignored : BitVec 3) (fhi : BitVec 3)
  /-- NR21, format LENDUTY (R110). -/
  | nr21 (duty : BitVec 2) (length : BitVec 6)
  /-- NR22, format ENV (R111). -/
  | nr22 (initial : BitVec 4) (increase : Bool) (n : BitVec 3)
  /-- NR23, format FLO (R112). -/
  | nr23 (flo : BitVec 8)
  /-- NR24, format FHI (R113). -/
  | nr24 (trigger single : Bool) (ignored : BitVec 3) (fhi : BitVec 3)
  /-- NR30, format NOP (R114). -/
  | nr30 (ignored : Byte)
  /-- NR31, format NOP (R115). -/
  | nr31 (ignored : Byte)
  /-- NR32, format NOP (R116). -/
  | nr32 (ignored : Byte)
  /-- NR33, format NOP (R117). -/
  | nr33 (ignored : Byte)
  /-- NR34, format NOP (R118). -/
  | nr34 (ignored : Byte)
  /-- A wave RAM byte, format NOP (R119). -/
  | waveram (index : BitVec 4) (ignored : Byte)
  /-- NR41, format NLEN (R120). -/
  | nr41 (ignored : BitVec 2) (length : BitVec 6)
  /-- NR42, format ENV (R121). -/
  | nr42 (initial : BitVec 4) (increase : Bool) (n : BitVec 3)
  /-- NR43, format POLY (R122). -/
  | nr43 (shiftClock : BitVec 4) (smallStep : Bool) (prescale : BitVec 3)
  /-- NR44, format NTRIG (R123). -/
  | nr44 (trigger single : Bool) (ignored : BitVec 6)
  /-- NR50, format VOL (R124); the two ignored bits are 7 and 3. -/
  | nr50 (ignored7 : BitVec 1) (right : BitVec 3) (ignored3 : BitVec 1) (left : BitVec 3)
  /-- NR51, format ROUTE (R125): bit `s` of each nibble is slot `s`. -/
  | nr51 (rightEn leftEn : BitVec 4)
  /-- NR52, format POWER (R126). -/
  | nr52 (on : Bool) (ignored : BitVec 7)
  /-- A write to any other address (R127). -/
  | unmapped (addr : Addr) (ignored : Byte)
  /-- TICK (R129). -/
  | tick
  /-- NEXT (R130). -/
  | next (sampleRate : U32)
  /-- INIT (R128). -/
  | init
  /-- SET_SCALE (R131). -/
  | setScale (target : ScaleTarget) (v : I32)
  /-- CTICK (R132). -/
  | ctick (c : Channel)
  /-- CNEXT (R133). -/
  | cnext (c : Channel) (sampleRate : U32)
deriving DecidableEq, Repr

/-- A component an argument can name. -/
inductive Component
  | mixer
  | tone1
  | tone2
  | noise
deriving DecidableEq, Repr

/-- A typed argument of a format H call (R44). -/
inductive Arg
  | u32 (v : U32)
  | i32 (v : I32)
  | component (c : Component)
deriving DecidableEq, Repr

/-- One term of the operation stream before decoding: a format W word (R43), or a format H call, which carries a
name and typed arguments and no bit pattern (R44; log entry 4). -/
inductive Call
  | wr (w : WrWord)
  | host (name : String) (args : List Arg)
deriving DecidableEq, Repr

/-- What the host presents next: one operation, or two that overlap in time, which the block does not accept
(R134, R137 `Unserialized`; log entry 5). -/
inductive Input
  | one (c : Call)
  | overlapping (a b : Call)
deriving DecidableEq, Repr

end Sys2Proof
end

