-- ==== Sys2Proof/WellFormed.lean ====
section
/-!
DEFINITION. Which terms of `Instr` are operations a stream can carry, and which are inside the block's contract.
The only encoding constraint is that an UNMAPPED write has an address outside the mapped set (spec/30_encoding.md R52):
every other field takes every value its width allows (spec/10_state.md R22).
-/

namespace Sys2Proof

/-- The mapped set of spec/20_memory.md R27: 0xFF10–0xFF14, 0xFF16–0xFF1E, 0xFF20–0xFF26, 0xFF30–0xFF3F. -/
def Addr.mapped (a : Addr) : Bool :=
  (0xFF10 ≤ a.toNat && a.toNat ≤ 0xFF14) || (0xFF16 ≤ a.toNat && a.toNat ≤ 0xFF1E) ||
  (0xFF20 ≤ a.toNat && a.toNat ≤ 0xFF26) || (0xFF30 ≤ a.toNat && a.toNat ≤ 0xFF3F)

/-- The instruction is the decoding of some term. -/
def Instr.wellFormed : Instr → Bool
  | .unmapped addr _ => !Addr.mapped addr
  | _ => true

/-- `1 ≤ sample_rate ≤ 2^20` (R6, R137). -/
def sampleRateAdmitted (sampleRate : U32) : Bool :=
  1 ≤ sampleRate.toNat && sampleRate.toNat ≤ Config.tickRate

/-- The operands lie inside the block's contract: NEXT and CNEXT restrict their `sample_rate`, nothing else is
restricted (R53). -/
def Instr.inContract : Instr → Bool
  | .next sampleRate => sampleRateAdmitted sampleRate
  | .cnext _ sampleRate => sampleRateAdmitted sampleRate
  | _ => true

end Sys2Proof
end

