-- ==== Sys2Proof/Decode.lean ====
section
/-!
DEFINITION. The decoder of the operation stream, total on every term, and the encoder written from the same tables
(spec/30_encoding.md R43–R53, spec/opcode_table.json).
-/

namespace Sys2Proof

/-- Why a term of the stream is no operation (spec/60_exceptions.md R137). -/
inductive DecodeError
  /-- The term is none of the operations of R42. -/
  | unknownOperation
  /-- Two operations overlap in time. -/
  | unserialized
deriving DecidableEq, Repr

/-- `w[hi:lo]` with `n = hi − lo + 1` (R7), zero-extended by its type (R46). -/
def field {m : Nat} (w : BitVec m) (lo n : Nat) : BitVec n :=
  w.extractLsb' lo n

/-- `w[i]` as a flag (R7). -/
def bit {m : Nat} (w : BitVec m) (i : Nat) : Bool :=
  w.getLsbD i

/-- A flag as a one-bit field, the inverse of `bit`. -/
def flagBit (b : Bool) : BitVec 1 :=
  BitVec.ofBool b

/-- The decoding map of R52: the address alone selects the register, the layouts are those of R45. -/
def decodeWord (w : WrWord) : Instr :=
  let addr : Addr := field w 8 16
  let v : Byte := field w 0 8
  if addr = 0xFF10#16 then .nr10 (field v 7 1) (field v 4 3) (!bit v 3) (field v 0 3)
  else if addr = 0xFF11#16 then .nr11 (field v 6 2) (field v 0 6)
  else if addr = 0xFF12#16 then .nr12 (field v 4 4) (bit v 3) (field v 0 3)
  else if addr = 0xFF13#16 then .nr13 v
  else if addr = 0xFF14#16 then .nr14 (bit v 7) (bit v 6) (field v 3 3) (field v 0 3)
  else if addr = 0xFF16#16 then .nr21 (field v 6 2) (field v 0 6)
  else if addr = 0xFF17#16 then .nr22 (field v 4 4) (bit v 3) (field v 0 3)
  else if addr = 0xFF18#16 then .nr23 v
  else if addr = 0xFF19#16 then .nr24 (bit v 7) (bit v 6) (field v 3 3) (field v 0 3)
  else if addr = 0xFF1A#16 then .nr30 v
  else if addr = 0xFF1B#16 then .nr31 v
  else if addr = 0xFF1C#16 then .nr32 v
  else if addr = 0xFF1D#16 then .nr33 v
  else if addr = 0xFF1E#16 then .nr34 v
  else if addr = 0xFF20#16 then .nr41 (field v 6 2) (field v 0 6)
  else if addr = 0xFF21#16 then .nr42 (field v 4 4) (bit v 3) (field v 0 3)
  else if addr = 0xFF22#16 then .nr43 (field v 4 4) (bit v 3) (field v 0 3)
  else if addr = 0xFF23#16 then .nr44 (bit v 7) (bit v 6) (field v 0 6)
  else if addr = 0xFF24#16 then .nr50 (field v 7 1) (field v 4 3) (field v 3 1) (field v 0 3)
  else if addr = 0xFF25#16 then .nr51 (field v 4 4) (field v 0 4)
  else if addr = 0xFF26#16 then .nr52 (bit v 7) (field v 0 7)
  else if field addr 4 12 = 0xFF3#12 then .waveram (field addr 0 4) v
  else .unmapped addr v

/-- The channel an argument names; the Mixer is no channel (R42). -/
def channelOf : Component → Option Channel
  | .tone1 => some .tone1
  | .tone2 => some .tone2
  | .noise => some .noise
  | .mixer => none

/-- The scale target an argument names; the noise channel has no `scale_amplitude` (R131). -/
def scaleTargetOf : Component → Option ScaleTarget
  | .mixer => some .mixer
  | .tone1 => some .tone1
  | .tone2 => some .tone2
  | .noise => none

/-- Format H: the name and the argument types select the operation (R42, R44). -/
def decodeHost (name : String) (args : List Arg) : Option Instr :=
  match args with
  | [] =>
    if name = "TICK" then some .tick
    else if name = "INIT" then some .init
    else none
  | [.u32 r] => if name = "NEXT" then some (.next r) else none
  | [.component c] => if name = "CTICK" then (channelOf c).map .ctick else none
  | [.component c, .u32 r] => if name = "CNEXT" then (channelOf c).map (.cnext · r) else none
  | [.component c, .i32 v] => if name = "SET_SCALE" then (scaleTargetOf c).map (.setScale · v) else none
  | _ => none

/-- The decoder of one call: formats are told apart by the term's form, never by bits (R44). -/
def decodeCall : Call → Except DecodeError Instr
  | .wr w => .ok (decodeWord w)
  | .host name args =>
    match decodeHost name args with
    | some i => .ok i
    | none => .error .unknownOperation

/-- The decoder of the operation stream's terms. R137 gives no precedence between its two reasons when a call of an
overlapping term is itself no operation: such a term is refused as Unserialized without decoding either call (DESIGN
CHOICE, log entry 5). -/
def decode : Input → Except DecodeError Instr
  | .one c => decodeCall c
  | .overlapping _ _ => .error .unserialized

/-- The argument that names a channel. -/
def componentOfChannel : Channel → Component
  | .tone1 => .tone1
  | .tone2 => .tone2
  | .noise => .noise

/-- The argument that names a scale target. -/
def componentOfTarget : ScaleTarget → Component
  | .mixer => .mixer
  | .tone1 => .tone1
  | .tone2 => .tone2

/-- A register write's word, `{addr, value}` (R43). -/
def wrWord (addr : Addr) (value : Byte) : WrWord :=
  addr ++ value

/-- The term a host issues for an operation: the inverse of `decodeCall` on well-formed operations. -/
def encode : Instr → Call
  | .nr10 ignored time addition shift => .wr (wrWord 0xFF10#16 (ignored ++ time ++ flagBit (!addition) ++ shift))
  | .nr11 duty length => .wr (wrWord 0xFF11#16 (duty ++ length))
  | .nr12 initial increase n => .wr (wrWord 0xFF12#16 (initial ++ flagBit increase ++ n))
  | .nr13 flo => .wr (wrWord 0xFF13#16 flo)
  | .nr14 trigger single ignored fhi =>
    .wr (wrWord 0xFF14#16 (flagBit trigger ++ flagBit single ++ ignored ++ fhi))
  | .nr21 duty length => .wr (wrWord 0xFF16#16 (duty ++ length))
  | .nr22 initial increase n => .wr (wrWord 0xFF17#16 (initial ++ flagBit increase ++ n))
  | .nr23 flo => .wr (wrWord 0xFF18#16 flo)
  | .nr24 trigger single ignored fhi =>
    .wr (wrWord 0xFF19#16 (flagBit trigger ++ flagBit single ++ ignored ++ fhi))
  | .nr30 ignored => .wr (wrWord 0xFF1A#16 ignored)
  | .nr31 ignored => .wr (wrWord 0xFF1B#16 ignored)
  | .nr32 ignored => .wr (wrWord 0xFF1C#16 ignored)
  | .nr33 ignored => .wr (wrWord 0xFF1D#16 ignored)
  | .nr34 ignored => .wr (wrWord 0xFF1E#16 ignored)
  | .waveram index ignored => .wr (wrWord (0xFF3#12 ++ index) ignored)
  | .nr41 ignored length => .wr (wrWord 0xFF20#16 (ignored ++ length))
  | .nr42 initial increase n => .wr (wrWord 0xFF21#16 (initial ++ flagBit increase ++ n))
  | .nr43 shiftClock smallStep prescale =>
    .wr (wrWord 0xFF22#16 (shiftClock ++ flagBit smallStep ++ prescale))
  | .nr44 trigger single ignored => .wr (wrWord 0xFF23#16 (flagBit trigger ++ flagBit single ++ ignored))
  | .nr50 ignored7 right ignored3 left => .wr (wrWord 0xFF24#16 (ignored7 ++ right ++ ignored3 ++ left))
  | .nr51 rightEn leftEn => .wr (wrWord 0xFF25#16 (rightEn ++ leftEn))
  | .nr52 on ignored => .wr (wrWord 0xFF26#16 (flagBit on ++ ignored))
  | .unmapped addr ignored => .wr (wrWord addr ignored)
  | .tick => .host "TICK" []
  | .next sampleRate => .host "NEXT" [.u32 sampleRate]
  | .init => .host "INIT" []
  | .setScale target v => .host "SET_SCALE" [.component (componentOfTarget target), .i32 v]
  | .ctick c => .host "CTICK" [.component (componentOfChannel c)]
  | .cnext c sampleRate => .host "CNEXT" [.component (componentOfChannel c), .u32 sampleRate]

/-- One WR row of spec/opcode_table.json: a word belongs to it when its bits under `mask` are `pattern`. -/
structure OpcodeRow where
  mnemonic : String
  pattern : WrWord
  mask : WrWord
deriving DecidableEq, Repr

/-- The word's bits under the row's mask are the row's. -/
def OpcodeRow.hits (r : OpcodeRow) (w : WrWord) : Bool :=
  w &&& r.mask == r.pattern

/-- The WR rows of the table in its order, UNMAPPED last because it applies only when no other row matches. -/
def opcodeRows : List OpcodeRow :=
  [⟨"NR10", 0xFF1000, 0xFFFF00⟩, ⟨"NR11", 0xFF1100, 0xFFFF00⟩, ⟨"NR12", 0xFF1200, 0xFFFF00⟩,
   ⟨"NR13", 0xFF1300, 0xFFFF00⟩, ⟨"NR14", 0xFF1400, 0xFFFF00⟩, ⟨"NR21", 0xFF1600, 0xFFFF00⟩,
   ⟨"NR22", 0xFF1700, 0xFFFF00⟩, ⟨"NR23", 0xFF1800, 0xFFFF00⟩, ⟨"NR24", 0xFF1900, 0xFFFF00⟩,
   ⟨"NR30", 0xFF1A00, 0xFFFF00⟩, ⟨"NR31", 0xFF1B00, 0xFFFF00⟩, ⟨"NR32", 0xFF1C00, 0xFFFF00⟩,
   ⟨"NR33", 0xFF1D00, 0xFFFF00⟩, ⟨"NR34", 0xFF1E00, 0xFFFF00⟩] ++
  [⟨"WAVERAM", 0xFF3000, 0xFFF000⟩, ⟨"NR41", 0xFF2000, 0xFFFF00⟩, ⟨"NR42", 0xFF2100, 0xFFFF00⟩,
   ⟨"NR43", 0xFF2200, 0xFFFF00⟩, ⟨"NR44", 0xFF2300, 0xFFFF00⟩, ⟨"NR50", 0xFF2400, 0xFFFF00⟩,
   ⟨"NR51", 0xFF2500, 0xFFFF00⟩, ⟨"NR52", 0xFF2600, 0xFFFF00⟩, ⟨"UNMAPPED", 0x000000, 0x000000⟩]

/-- The mnemonic spec/opcode_table.json gives an operation. -/
def Instr.mnemonic : Instr → String
  | .nr10 _ _ _ _ => "NR10"
  | .nr11 _ _ => "NR11"
  | .nr12 _ _ _ => "NR12"
  | .nr13 _ => "NR13"
  | .nr14 _ _ _ _ => "NR14"
  | .nr21 _ _ => "NR21"
  | .nr22 _ _ _ => "NR22"
  | .nr23 _ => "NR23"
  | .nr24 _ _ _ _ => "NR24"
  | .nr30 _ => "NR30"
  | .nr31 _ => "NR31"
  | .nr32 _ => "NR32"
  | .nr33 _ => "NR33"
  | .nr34 _ => "NR34"
  | .waveram _ _ => "WAVERAM"
  | .nr41 _ _ => "NR41"
  | .nr42 _ _ _ => "NR42"
  | .nr43 _ _ _ => "NR43"
  | .nr44 _ _ _ => "NR44"
  | .nr50 _ _ _ _ => "NR50"
  | .nr51 _ _ => "NR51"
  | .nr52 _ _ => "NR52"
  | .unmapped _ _ => "UNMAPPED"
  | .tick => "TICK"
  | .next _ => "NEXT"
  | .init => "INIT"
  | .setScale _ _ => "SET_SCALE"
  | .ctick _ => "CTICK"
  | .cnext _ _ => "CNEXT"

/-- The stream term for a word given as a number of `nbits` bits, numbered as the opcode table numbers them. A number
that does not fit 24 bits is no WR word and becomes a call of no operation (log entry 7). -/
def inputOfTableWord (nbits w : Nat) : Input :=
  if w % 2 ^ nbits < 2 ^ 24 then .one (.wr (BitVec.ofNat 24 (w % 2 ^ nbits)))
  else .one (.host "word wider than 24 bits" [])

/-- What the decoder reads from an instruction given by its table bits. -/
def decodeTableWord (nbits w : Nat) : Option Instr :=
  match decode (inputOfTableWord nbits w) with
  | .ok i => some i
  | .error _ => none

end Sys2Proof
end

