-- ==== Sys2Proof/Machine/State.lean ====
section
/-!
DEFINITION. The state of the block (spec/10_state.md), the reasons a step can stop, and the state after reset
(spec/45_host_interface.md R128, spec/70_reset_and_hazards.md R148).
The block has no memory array (spec/20_memory.md R26), so State holds none (log entry 8).
-/

namespace Sys2Proof.Machine

/-- A Clock Divider (R14). -/
structure ClockDivider where
  remainder : U32
  shift : U32
deriving DecidableEq, Repr

/-- The sweep state of a tone channel (R15: `sweep_enabled`, `sweep_count`, `sweep_time`, `sweep_addition`,
`sweep_shift`). -/
structure SweepUnit where
  enabled : Bool
  count : U32
  time : BitVec 3
  addition : Bool
  shift : BitVec 3
deriving DecidableEq, Repr

/-- The length state of a channel (R15, R19: `len_count`, `length`, `repeat`). -/
structure LengthUnit where
  count : U32
  length : BitVec 6
  repeats : Bool
deriving DecidableEq, Repr

/-- The envelope state of a channel (R15, R19: `env_count`, `env_initial`, `env_increase`, `env_n`, `amplitude`). -/
structure EnvelopeUnit where
  count : U32
  initial : BitVec 4
  increase : Bool
  n : BitVec 3
  amplitude : BitVec 4
deriving DecidableEq, Repr

/-- A Tone Channel (R15). `divApu` and `scaleAmplitude` are read by no rule (R17); they are kept all the same
(log entry 11). -/
structure ToneChannel where
  running : Bool
  divApu : ClockDivider
  divSeq : ClockDivider
  divSweep : ClockDivider
  divLen : ClockDivider
  divEnv : ClockDivider
  sweep : SweepUnit
  len : LengthUnit
  env : EnvelopeUnit
  phaseCount : U32
  dutyCount : BitVec 3
  duty : BitVec 2
  gbfreq : BitVec 11
  scaleAmplitude : I32
deriving DecidableEq, Repr

/-- The Noise Channel (R19). -/
structure NoiseChannel where
  running : Bool
  divSeq : ClockDivider
  divLen : ClockDivider
  divEnv : ClockDivider
  lfsr : BitVec 16
  last : BitVec 1
  shiftClock : BitVec 4
  smallStep : Bool
  prescale : BitVec 3
  prescaleCount : U32
  shiftCount : U32
  len : LengthUnit
  env : EnvelopeUnit
deriving DecidableEq, Repr

/-- The Mixer's routing masks `terminal[0..3]`, one per slot (R20): bit 1 left, bit 0 right. -/
structure Terminals where
  tone1 : BitVec 2
  tone2 : BitVec 2
  wave : BitVec 2
  noise : BitVec 2
deriving DecidableEq, Repr

/-- The Mixer, which owns the three channels (R11, R20). -/
structure Mixer where
  tone1 : ToneChannel
  tone2 : ToneChannel
  noise : NoiseChannel
  enabled : Bool
  terminal : Terminals
  volumeRight : BitVec 3
  volumeLeft : BitVec 3
  scaleAmplitude : I32
deriving DecidableEq, Repr

/-- What an operation returns to the host (R42): nothing, a stereo pair, or one sample. -/
inductive Result
  | none
  | stereo (left right : Sample)
  | mono (v : Sample)
deriving DecidableEq, Repr

/-- The machine. `mixer` is the whole state of the block (R11). `stream` is the host's serialized operation stream, not
yet applied, oldest first (R42, R37; log entry 1), and `result` is what the last operation returned (log entry 3): these
two are the model's own fields. -/
structure State where
  mixer : Mixer
  stream : List Input
  result : Result
deriving DecidableEq, Repr

/-- No operation of the block faults (R136: "No operation of the block raises an exception, faults or traps"): the type
is empty, so no step can answer a fault (log entry 9). -/
inductive Fault
deriving DecidableEq, Repr

/-- The refusals of spec/60_exceptions.md R137, under the spec's names. -/
inductive Refusal
  /-- Raised by exec's arm of an instruction without a meaning. Safe: the run stops. No arm raises it. -/
  | notModelled (mnemonic : String)
  /-- Raised by NEXT and CNEXT when `sample_rate` is 0 or above 2^20, before any effect. Safe: toward unprovable. -/
  | BadSampleRate
  /-- Raised by the step when the next term is two operations that overlap. Safe: toward unprovable. -/
  | Unserialized
  /-- Raised by TICK, NEXT, CTICK and CNEXT when a channel about to be ticked steps a divider whose shift is 32 or more.
  Safe: no state reached from reset has one. -/
  | DividerShiftRange
  /-- Raised by the step when the next term of the stream is none of the operations. Safe: toward unprovable. -/
  | UnknownOperation
deriving DecidableEq, Repr

/-- A tone channel after reset (R148). -/
def ToneChannel.reset : ToneChannel where
  running := false
  divApu := ⟨0, 0⟩
  divSeq := ⟨0, 11⟩
  divSweep := ⟨0, 2⟩
  divLen := ⟨0, 1⟩
  divEnv := ⟨0, 3⟩
  sweep := { enabled := false, count := 0, time := 0, addition := false, shift := 0 }
  len := { count := 0, length := 0, repeats := false }
  env := { count := 0, initial := 0, increase := false, n := 0, amplitude := 0 }
  phaseCount := 0
  dutyCount := 0
  duty := 0
  gbfreq := 0
  scaleAmplitude := 0

/-- The noise channel after reset (R148). -/
def NoiseChannel.reset : NoiseChannel where
  running := false
  divSeq := ⟨0, 11⟩
  divLen := ⟨0, 1⟩
  divEnv := ⟨0, 3⟩
  lfsr := 0
  last := 0
  shiftClock := 0
  smallStep := false
  prescale := 0
  prescaleCount := 0
  shiftCount := 0
  len := { count := 0, length := 0, repeats := false }
  env := { count := 0, initial := 0, increase := false, n := 0, amplitude := 0 }

/-- The Mixer after reset (R148). -/
def Mixer.reset : Mixer where
  tone1 := ToneChannel.reset
  tone2 := ToneChannel.reset
  noise := NoiseChannel.reset
  enabled := false
  terminal := { tone1 := 0, tone2 := 0, wave := 0, noise := 0 }
  volumeRight := 0
  volumeLeft := 0
  scaleAmplitude := 0

/-- The machine right after reset: the block as R148 lists it, no operation issued yet, nothing returned yet. -/
def State.reset : State where
  mixer := Mixer.reset
  stream := []
  result := .none

end Sys2Proof.Machine
end

