-- ==== Sys2Proof/Machine/Operands.lean ====
section
/-!
DEFINITION. Operand assembly: how a register field becomes the stored field, and the operands derived from stored
fields at use (spec/30_encoding.md R46–R51), with the arithmetic of spec/00_scope.md R8.
Field extraction itself (`field`, `bit`, R46–R48) stands with the decoder, which uses it.
-/

namespace Sys2Proof.Machine

/-- R49, FLO: `(gbfreq & 0x700) | value`. -/
def mergeFreqLow (gbfreq : BitVec 11) (flo : Byte) : BitVec 11 :=
  (gbfreq &&& 0x700#11) ||| flo.setWidth 11

/-- R49, FHI: `(gbfreq & 0x0FF) | (value[2:0] << 8)`. -/
def mergeFreqHigh (gbfreq : BitVec 11) (fhi : BitVec 3) : BitVec 11 :=
  (gbfreq &&& 0x0FF#11) ||| (fhi.setWidth 11 <<< 8)

/-- R50: `terminal[s] = {left enable, right enable}`. -/
def terminalMask (leftEn rightEn : Bool) : BitVec 2 :=
  flagBit leftEn ++ flagBit rightEn

/-- R50, R101: all four masks of a ROUTE byte; slots 0 tone1, 1 tone2, 2 wave, 3 noise. -/
def routeMasks (rightEn leftEn : BitVec 4) : Terminals where
  tone1 := terminalMask (bit leftEn 0) (bit rightEn 0)
  tone2 := terminalMask (bit leftEn 1) (bit rightEn 1)
  wave := terminalMask (bit leftEn 2) (bit rightEn 2)
  noise := terminalMask (bit leftEn 3) (bit rightEn 3)

/-- R51: `DUTY_THRESHOLD = (1, 2, 4, 6)` (R6, R67). -/
def dutyThreshold (duty : BitVec 2) : Nat :=
  if duty = 0#2 then 1 else if duty = 1#2 then 2 else if duty = 2#2 then 4 else 6

/-- R51: the duty phase period `2048 − gbfreq`, 1..2048. -/
def phasePeriod (gbfreq : BitVec 11) : Nat :=
  Config.phaseBase - gbfreq.toNat

/-- R51: the length target `64 − length`, 1..64. -/
def lengthTarget (length : BitVec 6) : Nat :=
  Config.lenBase - length.toNat

/-- R51: the noise shift-clock threshold `1 << shift_clock`, 1..32768; 15 is not clamped (R86). -/
def shiftClockThreshold (shiftClock : BitVec 4) : Nat :=
  1 <<< shiftClock.toNat

/-- R51: the sweep delta `gbfreq >> shift`. -/
def sweepDelta (gbfreq : BitVec 11) (shift : BitVec 3) : Nat :=
  gbfreq.toNat >>> shift.toNat

/-- R51: the volume factor `volume + 1`, 1..8. -/
def volumeFactor (volume : BitVec 3) : Int :=
  volume.toNat + 1

/-- R67, R83: the amplitude with the sign of the waveform half. -/
def signedAmplitude (high : Bool) (amplitude : BitVec 4) : Int :=
  if high then amplitude.toNat else -(amplitude.toNat : Int)

/-- R8: integer division truncating toward zero. -/
def truncDiv (a b : Int) : Int :=
  a.tdiv b

/-- R8: the `i16` congruent to `v` modulo 2^16. -/
def wrap16 (v : Int) : Sample :=
  BitVec.ofInt 16 v

/-- R81, R98: the ticks of one decimated sample, `2^20 / sample_rate`. -/
def ticksPerSample (sampleRate : U32) : Nat :=
  Config.tickRate / sampleRate.toNat

/-- R16: `frequency_hz` is a function of `gbfreq` and no stored field; no operation reads it. -/
def frequencyHz (gbfreq : BitVec 11) : Nat :=
  Config.freqNum / (Config.phaseBase - gbfreq.toNat)

end Sys2Proof.Machine
end

