-- ==== Sys2Proof/Machine/Flags.lean ====
section
/-!
DEFINITION. The flag computations (spec/10_state.md R21): every write of `running`, `sweep_enabled`, `repeat` that is
not a plain copy of an operand. There are no condition codes.
-/

namespace Sys2Proof.Machine

/-- R74, R90: a trigger sets `running`; without one it keeps its value. -/
def runningAfterTrigger (trigger running : Bool) : Bool :=
  trigger || running

/-- R74: a trigger sets `sweep_enabled` only if `sweep_time ≠ 0`, and never clears it. -/
def sweepEnabledAfterTrigger (trigger : Bool) (time : BitVec 3) (enabled : Bool) : Bool :=
  (trigger && time != 0#3) || enabled

/-- R48, R74, R90: `repeat = not single`, whatever `trigger` is. -/
def repeatsOf (single : Bool) : Bool :=
  !single

/-- R71: the sweep overflows when the full-width sum is above 2047. -/
def sweepOverflows (sum : Nat) : Bool :=
  decide (Config.gbfreqMax < sum)

/-- R71: an overflow clears `running` and `sweep_enabled`. -/
def flagAfterOverflow (overflow flag : Bool) : Bool :=
  flag && !overflow

/-- R72: the length counter's expiry clears `running` unless `repeat` is set. -/
def runningAfterLength (expired repeats running : Bool) : Bool :=
  running && !(expired && !repeats)

end Sys2Proof.Machine
end

