-- ==== Sys2Proof/Machine/Ops.lean ====
section
/-!
DEFINITION. The operations every family shares: the two counting primitives (spec/40_clock_divider.md), the length and
envelope units of any channel (spec/41_tone_channel.md R72, R73, R77), the answer of an operation, the refusals
(spec/60_exceptions.md R137) and the fetch of the next operation.
The block has no memory to read or write (spec/20_memory.md R26) and no exception to take or to return from
(R136, R141): a refusal is all a model needs in their place, so no such operation stands here (log entries 8 and 9).
-/

namespace Sys2Proof.Machine

/-- R57 `divider_init`: the shift is clamped at 0, the remainder is zeroed. -/
def dividerInit (inExp outExp : U32) : ClockDivider where
  remainder := 0
  shift := if outExp.toNat ≤ inExp.toNat then inExp - outExp else 0

/-- R58 `divider_step`: the number of pulses and the divider after it. The sum wraps modulo 2^32. A shift of 32 or more
is refused before this is reached (`ClockDivider.inRange`, log entry 6). -/
def dividerStep (d : ClockDivider) (ticks : U32) : U32 × ClockDivider :=
  let s := d.remainder + ticks
  (s >>> d.shift, { d with remainder := s &&& ((1#32 <<< d.shift) - 1#32) })

/-- The divider can be stepped: its shift is below 32 (R58, R137 `DividerShiftRange`). -/
def ClockDivider.inRange (d : ClockDivider) : Bool :=
  decide (d.shift.toNat < Config.divW)

/-- R60 `counter_tick`: whether the counter fires, and the counter after it. The sum is compared as an exact integer
(log entry 13). -/
def counterTick (c : U32) (threshold : Nat) (n : U32) : Bool × U32 :=
  if n = 0#32 then (false, c)
  else if threshold ≤ c.toNat + n.toNat then (true, 0#32)
  else (false, c + n)

/-- R72 `length_step` on the length unit: whether the counter reached its target, and the unit after it. -/
def lengthStep (u : LengthUnit) (ln : U32) : Bool × LengthUnit :=
  let p := counterTick u.count (lengthTarget u.length) ln
  (p.1, { u with count := p.2 })

/-- R73: one amplitude step, clamped at 15 and at 0. -/
def amplitudeStep (increase : Bool) (amplitude : BitVec 4) : BitVec 4 :=
  if increase then BitVec.ofNat 4 (min (amplitude.toNat + 1) Config.ampMax)
  else BitVec.ofNat 4 (amplitude.toNat - 1)

/-- R73 `envelope_step`: frozen while `env_n = 0`, else one amplitude step per `env_n` pulses. -/
def envelopeStep (u : EnvelopeUnit) (ev : U32) : EnvelopeUnit :=
  if u.n = 0#3 then u
  else
    let p := counterTick u.count u.n.toNat ev
    { u with count := p.2, amplitude := if p.1 then amplitudeStep u.increase u.amplitude else u.amplitude }

/-- R77 `set_volume_envelope`, which also loads `amplitude`; the count stays. -/
def setVolumeEnvelope (u : EnvelopeUnit) (initial : BitVec 4) (increase : Bool) (n : BitVec 3) : EnvelopeUnit :=
  { u with initial := initial, increase := increase, n := n, amplitude := initial }

/-- An operation completes: the block is `m` and the host gets `r`. -/
def State.answer (s : State) (m : Mixer) (r : Result) : State :=
  { s with mixer := m, result := r }

/-- A register write completes: it returns nothing (R104). -/
def State.written (s : State) (m : Mixer) : Host.Outcome State Fault Refusal :=
  .next (s.answer m .none)

/-- The refusal of a term that is no operation (R137). -/
def refusalOf : DecodeError → Refusal
  | .unknownOperation => .UnknownOperation
  | .unserialized => .Unserialized

/-- The next operation of the host's stream, decoded, and the state with that term taken off the stream (R37, R42);
`none` when the host has issued nothing. -/
def fetch (s : State) : Option (Except DecodeError Instr × State) :=
  match s.stream with
  | [] => none
  | input :: rest => some (decode input, { s with stream := rest })

/-- With no operation issued nothing happens: the block's progress is the host's operations alone (R13, R138;
log entry 2). -/
def idle (s : State) : Host.Outcome State Fault Refusal :=
  .next s

end Sys2Proof.Machine
end

