-- ==== Sys2Proof/Machine/ToneChannel.lean ====
section
/-!
DEFINITION. The Tone Channel (spec/41_tone_channel.md): its tick, the six steps, the trigger, the setters and the
sample-rate conversion.
-/

namespace Sys2Proof.Machine

/-- R67, step 1: the sample before anything moves. -/
def toneSample (T : ToneChannel) : Int :=
  signedAmplitude (decide (T.dutyCount.toNat < dutyThreshold T.duty)) T.env.amplitude

/-- R69, step 2: the phase counter and the duty step, modulo 8 by its width. -/
def tonePhase (T : ToneChannel) : ToneChannel :=
  let p := counterTick T.phaseCount (phasePeriod T.gbfreq) 1#32
  { T with phaseCount := p.2, dutyCount := if p.1 then T.dutyCount + 1#3 else T.dutyCount }

/-- The pulses of a channel's sub-clocks in one tick (R70, R89). -/
structure Pulses where
  sweep : U32
  len : U32
  env : U32
deriving DecidableEq, Repr

/-- R70, step 3: the sequencer feeds the sweep, length and envelope dividers. -/
def toneSubclocks (T : ToneChannel) : Pulses × ToneChannel :=
  let q := dividerStep T.divSeq 1#32
  let sw := dividerStep T.divSweep q.1
  let ln := dividerStep T.divLen q.1
  let ev := dividerStep T.divEnv q.1
  (⟨sw.1, ln.1, ev.1⟩, { T with divSeq := q.2, divSweep := sw.2, divLen := ln.2, divEnv := ev.2 })

/-- R71, one frequency update: in addition mode a sum above 2047 stops the channel and the sweep and keeps `gbfreq`; in
subtraction mode `gbfreq` changes only if the delta is below it. -/
def sweepUpdate (T : ToneChannel) : ToneChannel :=
  let delta := sweepDelta T.gbfreq T.sweep.shift
  if T.sweep.addition then
    let sum := T.gbfreq.toNat + delta
    { T with
      running := flagAfterOverflow (sweepOverflows sum) T.running
      sweep := { T.sweep with enabled := flagAfterOverflow (sweepOverflows sum) T.sweep.enabled }
      gbfreq := if sweepOverflows sum then T.gbfreq else BitVec.ofNat 11 sum }
  else
    { T with gbfreq := if delta < T.gbfreq.toNat then BitVec.ofNat 11 (T.gbfreq.toNat - delta) else T.gbfreq }

/-- R71, step 4: an update once every `sweep_time` sweep pulses, only while the sweep is enabled. -/
def toneSweep (T : ToneChannel) (sw : U32) : ToneChannel :=
  if T.sweep.enabled then
    let p := counterTick T.sweep.count T.sweep.time.toNat sw
    let T' := { T with sweep := { T.sweep with count := p.2 } }
    if p.1 then sweepUpdate T' else T'
  else T

/-- R72, step 5. -/
def toneLength (T : ToneChannel) (ln : U32) : ToneChannel :=
  let p := lengthStep T.len ln
  { T with len := p.2, running := runningAfterLength p.1 T.len.repeats T.running }

/-- R73, step 6. -/
def toneEnvelope (T : ToneChannel) (ev : U32) : ToneChannel :=
  { T with env := envelopeStep T.env ev }

/-- Steps 2 to 6 of a running channel's tick, in their fixed order; a stop in step 4 or 5 skips nothing (R66). -/
def toneAdvance (T : ToneChannel) : ToneChannel :=
  let p := toneSubclocks (tonePhase T)
  toneEnvelope (toneLength (toneSweep p.2 p.1.sweep) p.1.len) p.1.env

/-- R64 `tone_tick`: the sample, and the channel after it; a stopped channel returns 0 and holds (R65). -/
def toneTick (T : ToneChannel) : Int × ToneChannel :=
  if T.running then (toneSample T, toneAdvance T) else (0, T)

/-- `k` ticks from the channel `T`, with the last tick's sample (R81). -/
def toneTicks (k : Nat) (T : ToneChannel) : Int × ToneChannel :=
  (fun p => toneTick p.2)^[k] (0, T)

/-- R81 `tone_next` for an admitted rate: the last of `2^20 / sample_rate` ticks. -/
def toneNext (T : ToneChannel) (sampleRate : U32) : Int × ToneChannel :=
  toneTicks (ticksPerSample sampleRate) T

/-- Every divider that a running channel steps has its shift below 32 (R58). -/
def ToneChannel.dividersInRange (T : ToneChannel) : Bool :=
  T.divSeq.inRange && T.divSweep.inRange && T.divLen.inRange && T.divEnv.inRange

/-- The channel can be ticked: a stopped one steps no divider (R65, log entry 6). -/
def ToneChannel.tickable (T : ToneChannel) : Bool :=
  !T.running || T.dividersInRange

/-- R74 `tone_trigger`. -/
def toneTrigger (T : ToneChannel) (trigger single : Bool) : ToneChannel :=
  { T with
    running := runningAfterTrigger trigger T.running
    sweep := { T.sweep with
      enabled := sweepEnabledAfterTrigger trigger T.sweep.time T.sweep.enabled
      count := if trigger then 0#32 else T.sweep.count }
    len := { T.len with
      count := if trigger then 0#32 else T.len.count
      repeats := repeatsOf single }
    env := { T.env with count := if trigger then 0#32 else T.env.count } }

/-- R75 `tone_set_sweep`. -/
def toneSetSweep (T : ToneChannel) (time : BitVec 3) (addition : Bool) (shift : BitVec 3) : ToneChannel :=
  { T with sweep := { T.sweep with time := time, addition := addition, shift := shift } }

/-- R76 `tone_set_length_duty`. -/
def toneSetLengthDuty (T : ToneChannel) (length : BitVec 6) (duty : BitVec 2) : ToneChannel :=
  { T with len := { T.len with length := length }, duty := duty }

/-- R77 on a tone channel. -/
def toneSetEnvelope (T : ToneChannel) (initial : BitVec 4) (increase : Bool) (n : BitVec 3) : ToneChannel :=
  { T with env := setVolumeEnvelope T.env initial increase n }

/-- R78 `tone_set_freq_low`. -/
def toneSetFreqLow (T : ToneChannel) (flo : Byte) : ToneChannel :=
  { T with gbfreq := mergeFreqLow T.gbfreq flo }

/-- R79 `tone_set_freq_high`: the frequency bits, then the trigger. -/
def toneSetFreqHigh (T : ToneChannel) (trigger single : Bool) (fhi : BitVec 3) : ToneChannel :=
  toneTrigger { T with gbfreq := mergeFreqHigh T.gbfreq fhi } trigger single

/-- R128: a tone channel as INIT leaves it, every divider by `divider_init`. -/
def toneInit : ToneChannel where
  running := false
  divApu := dividerInit 0 0
  divSeq := dividerInit 20 9
  divSweep := dividerInit 9 7
  divLen := dividerInit 9 8
  divEnv := dividerInit 9 6
  sweep := { enabled := false, count := 0, time := 0, addition := false, shift := 0 }
  len := { count := 0, length := 0, repeats := false }
  env := { count := 0, initial := 0, increase := false, n := 0, amplitude := 0 }
  phaseCount := 0
  dutyCount := 0
  duty := 0
  gbfreq := 0
  scaleAmplitude := 0

end Sys2Proof.Machine
end

