-- ==== Sys2Proof/Machine/NoiseChannel.lean ====
section
/-!
DEFINITION. The Noise Channel (spec/42_noise_channel.md): its tick, the two-stage clock gate, the LFSR, the trigger, the
setters and the sample-rate conversion.
-/

namespace Sys2Proof.Machine

/-- R83: `last = 0` gives the positive sample. -/
def noiseSample (N : NoiseChannel) : Int :=
  signedAmplitude (N.last == 0#1) N.env.amplitude

/-- R87: the register an advance starts from, reseeded to 1 on 0. -/
def lfsrSeed (lfsr : BitVec 16) : BitVec 16 :=
  if lfsr = 0#16 then 1#16 else lfsr

/-- R87: `bit0 ^ bit1`, as a 16-bit value 0 or 1. -/
def lfsrFeedback (l : BitVec 16) : BitVec 16 :=
  (l &&& 1#16) ^^^ ((l >>> 1) &&& 1#16)

/-- R87: the register after one advance; in small-step mode the feedback is ORed into bit 6, not written over it. -/
def lfsrNext (smallStep : Bool) (lfsr : BitVec 16) : BitVec 16 :=
  let l := lfsrSeed lfsr
  (l >>> 1) ||| (lfsrFeedback l <<< 14) ||| (if smallStep then lfsrFeedback l <<< 6 else 0#16)

/-- R87 `lfsr_advance`. -/
def lfsrAdvance (N : NoiseChannel) : NoiseChannel :=
  { N with lfsr := lfsrNext N.smallStep N.lfsr, last := field (lfsrSeed N.lfsr) 0 1 }

/-- R84, R85: the prescale counter must fire before the shift-clock counter counts, and that one before the LFSR
advances. -/
def noiseGate (N : NoiseChannel) : NoiseChannel :=
  let p := counterTick N.prescaleCount N.prescale.toNat 1#32
  let N1 := { N with prescaleCount := p.2 }
  if p.1 then
    let q := counterTick N.shiftCount (shiftClockThreshold N.shiftClock) 1#32
    let N2 := { N1 with shiftCount := q.2 }
    if q.1 then lfsrAdvance N2 else N2
  else N1

/-- R89 `noise_subclocks`: the tone channel's step 3 without the sweep divider, whose pulses are 0. -/
def noiseSubclocks (N : NoiseChannel) : Pulses × NoiseChannel :=
  let q := dividerStep N.divSeq 1#32
  let ln := dividerStep N.divLen q.1
  let ev := dividerStep N.divEnv q.1
  (⟨0#32, ln.1, ev.1⟩, { N with divSeq := q.2, divLen := ln.2, divEnv := ev.2 })

/-- R72 on the noise channel. -/
def noiseLength (N : NoiseChannel) (ln : U32) : NoiseChannel :=
  let p := lengthStep N.len ln
  { N with len := p.2, running := runningAfterLength p.1 N.len.repeats N.running }

/-- R73 on the noise channel. -/
def noiseEnvelope (N : NoiseChannel) (ev : U32) : NoiseChannel :=
  { N with env := envelopeStep N.env ev }

/-- The steps of a running channel's tick after its sample, in their fixed order (R82). -/
def noiseAdvance (N : NoiseChannel) : NoiseChannel :=
  let p := noiseSubclocks (noiseGate N)
  noiseEnvelope (noiseLength p.2 p.1.len) p.1.env

/-- R82 `noise_tick`. -/
def noiseTick (N : NoiseChannel) : Int × NoiseChannel :=
  if N.running then (noiseSample N, noiseAdvance N) else (0, N)

/-- `k` ticks from the channel `N`, with the last tick's sample (R93). -/
def noiseTicks (k : Nat) (N : NoiseChannel) : Int × NoiseChannel :=
  (fun p => noiseTick p.2)^[k] (0, N)

/-- R93 `noise_next` for an admitted rate. -/
def noiseNext (N : NoiseChannel) (sampleRate : U32) : Int × NoiseChannel :=
  noiseTicks (ticksPerSample sampleRate) N

/-- Every divider that a running channel steps has its shift below 32 (R58). -/
def NoiseChannel.dividersInRange (N : NoiseChannel) : Bool :=
  N.divSeq.inRange && N.divLen.inRange && N.divEnv.inRange

/-- The channel can be ticked (log entry 6). -/
def NoiseChannel.tickable (N : NoiseChannel) : Bool :=
  !N.running || N.dividersInRange

/-- R90 `noise_trigger`. -/
def noiseTrigger (N : NoiseChannel) (trigger single : Bool) : NoiseChannel :=
  { N with
    running := runningAfterTrigger trigger N.running
    lfsr := if trigger then 1#16 else N.lfsr
    last := if trigger then 0#1 else N.last
    prescaleCount := if trigger then 0#32 else N.prescaleCount
    shiftCount := if trigger then 0#32 else N.shiftCount
    len := { N.len with
      count := if trigger then 0#32 else N.len.count
      repeats := repeatsOf single }
    env := { N.env with count := if trigger then 0#32 else N.env.count } }

/-- R91 `noise_set_length`. -/
def noiseSetLength (N : NoiseChannel) (length : BitVec 6) : NoiseChannel :=
  { N with len := { N.len with length := length } }

/-- R77 on the noise channel. -/
def noiseSetEnvelope (N : NoiseChannel) (initial : BitVec 4) (increase : Bool) (n : BitVec 3) : NoiseChannel :=
  { N with env := setVolumeEnvelope N.env initial increase n }

/-- R92 `noise_set_poly`. -/
def noiseSetPoly (N : NoiseChannel) (shiftClock : BitVec 4) (smallStep : Bool) (prescale : BitVec 3) : NoiseChannel :=
  { N with shiftClock := shiftClock, smallStep := smallStep, prescale := prescale }

/-- R128: the noise channel as INIT leaves it. -/
def noiseInit : NoiseChannel where
  running := false
  divSeq := dividerInit 20 9
  divLen := dividerInit 9 8
  divEnv := dividerInit 9 6
  lfsr := 0
  last := 0
  shiftClock := 0
  smallStep := false
  prescale := 0
  prescaleCount := 0
  shiftCount := 0
  len := { count := 0, length := 0, repeats := false }
  env := { count := 0, initial := 0, increase := false, n := 0, amplitude := 0 }

end Sys2Proof.Machine
end

