-- ==== Sys2Proof/Machine/Mixer.lean ====
section
/-!
DEFINITION. The Mixer (spec/43_mixer.md): the stereo tick, routing, master volume, the decimated mono output and the
setters.
-/

namespace Sys2Proof.Machine

/-- The samples of the four slots in one tick (R94, R95). -/
structure SlotSamples where
  tone1 : Int
  tone2 : Int
  wave : Int
  noise : Int
deriving DecidableEq, Repr

/-- R94: the three channels ticked in lockstep; the wave slot gives 0 (R97). -/
def tickChannels (m : Mixer) : SlotSamples × Mixer :=
  let a := toneTick m.tone1
  let b := toneTick m.tone2
  let n := noiseTick m.noise
  (⟨a.1, b.1, 0, n.1⟩, { m with tone1 := a.2, tone2 := b.2, noise := n.2 })

/-- A slot's contribution to one lane: its sample if the mask's bit is set, else 0 (R95). -/
def gate (enable : Bool) (sample : Int) : Int :=
  if enable then sample else 0

/-- R95: the sum of the slots whose mask has bit `i` set (1 left, 0 right). -/
def routeLane (t : Terminals) (i : Nat) (x : SlotSamples) : Int :=
  gate (bit t.tone1 i) x.tone1 + gate (bit t.tone2 i) x.tone2 + gate (bit t.wave i) x.wave +
    gate (bit t.noise i) x.noise

/-- A stereo pair inside the block. -/
structure Stereo where
  left : Int
  right : Int
deriving DecidableEq, Repr

/-- R95, R96: route and scale each lane by its volume factor. -/
def mixDown (m : Mixer) (x : SlotSamples) : Stereo where
  left := routeLane m.terminal 1 x * volumeFactor m.volumeLeft
  right := routeLane m.terminal 0 x * volumeFactor m.volumeRight

/-- R94 `mixer_tick`: powered off it returns zeros and advances nothing. -/
def mixerTick (m : Mixer) : Stereo × Mixer :=
  if m.enabled then
    let p := tickChannels m
    (mixDown m p.1, p.2)
  else (⟨0, 0⟩, m)

/-- `k` Mixer ticks, with the last pair (R98). -/
def mixerTicks (k : Nat) (m : Mixer) : Stereo × Mixer :=
  (fun p => mixerTick p.2)^[k] (⟨0, 0⟩, m)

/-- R98: the mono sample of a pair: average, scale at full width, wrap to 16 bits. -/
def monoOut (p : Stereo) (scaleAmplitude : I32) : Sample :=
  wrap16 (truncDiv (truncDiv (p.left + p.right) 2 * scaleAmplitude.toInt) Config.mixDiv)

/-- R98 `mixer_next` for an admitted rate. -/
def mixerNext (m : Mixer) (sampleRate : U32) : Sample × Mixer :=
  let p := mixerTicks (ticksPerSample sampleRate) m
  (monoOut p.1 m.scaleAmplitude, p.2)

/-- Every channel a Mixer tick would advance can be ticked; powered off it advances none (log entry 6). -/
def Mixer.tickable (m : Mixer) : Bool :=
  !m.enabled || (m.tone1.tickable && m.tone2.tickable && m.noise.tickable)

/-- R100 `mixer_set_volume`. -/
def mixerSetVolume (m : Mixer) (right left : BitVec 3) : Mixer :=
  { m with volumeRight := right, volumeLeft := left }

/-- R101 `mixer_set_routing`. -/
def mixerSetRouting (m : Mixer) (rightEn leftEn : BitVec 4) : Mixer :=
  { m with terminal := routeMasks rightEn leftEn }

/-- R102 `mixer_set_power`. -/
def mixerSetPower (m : Mixer) (on : Bool) : Mixer :=
  { m with enabled := on }

/-- R131: the target's `scale_amplitude` is set absolutely. -/
def setScaleAmplitude (m : Mixer) (target : ScaleTarget) (v : I32) : Mixer :=
  match target with
  | .mixer => { m with scaleAmplitude := v }
  | .tone1 => { m with tone1 := { m.tone1 with scaleAmplitude := v } }
  | .tone2 => { m with tone2 := { m.tone2 with scaleAmplitude := v } }

/-- R128: the block as INIT leaves it. -/
def mixerInit : Mixer where
  tone1 := toneInit
  tone2 := toneInit
  noise := noiseInit
  enabled := false
  terminal := { tone1 := 0, tone2 := 0, wave := 0, noise := 0 }
  volumeRight := 0
  volumeLeft := 0
  scaleAmplitude := 0

end Sys2Proof.Machine
end

