-- ==== Sys2Proof/Machine/HostOps.lean ====
section
/-!
DEFINITION. The host operations (spec/45_host_interface.md R128–R133).
-/

namespace Sys2Proof.Machine

/-- INIT (R128): the whole block, whatever it held; the host's stream is not the block's. -/
def execInit (s : State) : Host.Outcome State Fault Refusal :=
  .next (s.answer mixerInit .none)

/-- The pair as the host receives it, two `i16` (R129). -/
def stereoResult (p : Stereo) : Result :=
  .stereo (wrap16 p.left) (wrap16 p.right)

/-- TICK (R129). -/
def execTick (s : State) : Host.Outcome State Fault Refusal :=
  if s.mixer.tickable then
    let p := mixerTick s.mixer
    .next (s.answer p.2 (stereoResult p.1))
  else .refused .DividerShiftRange

/-- NEXT (R130). -/
def execNext (sampleRate : U32) (s : State) : Host.Outcome State Fault Refusal :=
  if !sampleRateAdmitted sampleRate then .refused .BadSampleRate
  else if s.mixer.tickable then
    let p := mixerNext s.mixer sampleRate
    .next (s.answer p.2 (.mono p.1))
  else .refused .DividerShiftRange

/-- SET_SCALE (R131). -/
def execSetScale (target : ScaleTarget) (v : I32) (s : State) : Host.Outcome State Fault Refusal :=
  .next (s.answer (setScaleAmplitude s.mixer target v) .none)

/-- The named channel can be ticked (log entry 6). -/
def channelTickable (m : Mixer) (c : Channel) : Bool :=
  match c with
  | .tone1 => m.tone1.tickable
  | .tone2 => m.tone2.tickable
  | .noise => m.noise.tickable

/-- `k` ticks of the named channel alone, with its last sample (R132, R133): the Mixer and the other channels hold. -/
def channelTicks (m : Mixer) (c : Channel) (k : Nat) : Int × Mixer :=
  match c with
  | .tone1 => let p := toneTicks k m.tone1; (p.1, { m with tone1 := p.2 })
  | .tone2 => let p := toneTicks k m.tone2; (p.1, { m with tone2 := p.2 })
  | .noise => let p := noiseTicks k m.noise; (p.1, { m with noise := p.2 })

/-- CTICK (R132). -/
def execCtick (c : Channel) (s : State) : Host.Outcome State Fault Refusal :=
  if channelTickable s.mixer c then
    let p := channelTicks s.mixer c 1
    .next (s.answer p.2 (.mono (wrap16 p.1)))
  else .refused .DividerShiftRange

/-- CNEXT (R133): the channel's raw sample, no scale applied. -/
def execCnext (c : Channel) (sampleRate : U32) (s : State) : Host.Outcome State Fault Refusal :=
  if !sampleRateAdmitted sampleRate then .refused .BadSampleRate
  else if channelTickable s.mixer c then
    let p := channelTicks s.mixer c (ticksPerSample sampleRate)
    .next (s.answer p.2 (.mono (wrap16 p.1)))
  else .refused .DividerShiftRange

end Sys2Proof.Machine
end

