-- ==== Sys2Proof/Machine/MixerRegisters.lean ====
section
/-!
DEFINITION. Writes to the Mixer registers (spec/44_register_writes.md R124–R126).
-/

namespace Sys2Proof.Machine

/-- NR50 (R124). -/
def execNr50 (_ignored7 : BitVec 1) (right : BitVec 3) (_ignored3 : BitVec 1) (left : BitVec 3) (s : State) :
    Host.Outcome State Fault Refusal :=
  s.written (mixerSetVolume s.mixer right left)

/-- NR51 (R125). -/
def execNr51 (rightEn leftEn : BitVec 4) (s : State) : Host.Outcome State Fault Refusal :=
  s.written (mixerSetRouting s.mixer rightEn leftEn)

/-- NR52 (R126). -/
def execNr52 (on : Bool) (_ignored : BitVec 7) (s : State) : Host.Outcome State Fault Refusal :=
  s.written (mixerSetPower s.mixer on)

end Sys2Proof.Machine
end

