-- ==== Sys2Proof/Machine/NoiseRegisters.lean ====
section
/-!
DEFINITION. Writes to the registers of the noise channel (spec/44_register_writes.md R120–R123).
-/

namespace Sys2Proof.Machine

/-- NR41 (R120). -/
def execNr41 (_ignored : BitVec 2) (length : BitVec 6) (s : State) : Host.Outcome State Fault Refusal :=
  s.written { s.mixer with noise := noiseSetLength s.mixer.noise length }

/-- NR42 (R121). -/
def execNr42 (initial : BitVec 4) (increase : Bool) (n : BitVec 3) (s : State) : Host.Outcome State Fault Refusal :=
  s.written { s.mixer with noise := noiseSetEnvelope s.mixer.noise initial increase n }

/-- NR43 (R122). -/
def execNr43 (shiftClock : BitVec 4) (smallStep : Bool) (prescale : BitVec 3) (s : State) :
    Host.Outcome State Fault Refusal :=
  s.written { s.mixer with noise := noiseSetPoly s.mixer.noise shiftClock smallStep prescale }

/-- NR44 (R123). -/
def execNr44 (trigger single : Bool) (_ignored : BitVec 6) (s : State) : Host.Outcome State Fault Refusal :=
  s.written { s.mixer with noise := noiseTrigger s.mixer.noise trigger single }

end Sys2Proof.Machine
end

