-- ==== Sys2Proof/Machine/Tone1Registers.lean ====
section
/-!
DEFINITION. Writes to the registers of tone channel 1 (spec/44_register_writes.md R105–R109).
-/

namespace Sys2Proof.Machine

/-- NR10 (R105). -/
def execNr10 (_ignored : BitVec 1) (time : BitVec 3) (addition : Bool) (shift : BitVec 3) (s : State) :
    Host.Outcome State Fault Refusal :=
  s.written { s.mixer with tone1 := toneSetSweep s.mixer.tone1 time addition shift }

/-- NR11 (R106). -/
def execNr11 (duty : BitVec 2) (length : BitVec 6) (s : State) : Host.Outcome State Fault Refusal :=
  s.written { s.mixer with tone1 := toneSetLengthDuty s.mixer.tone1 length duty }

/-- NR12 (R107). -/
def execNr12 (initial : BitVec 4) (increase : Bool) (n : BitVec 3) (s : State) : Host.Outcome State Fault Refusal :=
  s.written { s.mixer with tone1 := toneSetEnvelope s.mixer.tone1 initial increase n }

/-- NR13 (R108). -/
def execNr13 (flo : BitVec 8) (s : State) : Host.Outcome State Fault Refusal :=
  s.written { s.mixer with tone1 := toneSetFreqLow s.mixer.tone1 flo }

/-- NR14 (R109). -/
def execNr14 (trigger single : Bool) (_ignored : BitVec 3) (fhi : BitVec 3) (s : State) :
    Host.Outcome State Fault Refusal :=
  s.written { s.mixer with tone1 := toneSetFreqHigh s.mixer.tone1 trigger single fhi }

end Sys2Proof.Machine
end

