-- ==== Sys2Proof/Machine/Tone2Registers.lean ====
section
/-!
DEFINITION. Writes to the registers of tone channel 2 (spec/44_register_writes.md R110–R113).
It has no sweep register (spec/10_state.md R18).
-/

namespace Sys2Proof.Machine

/-- NR21 (R110). -/
def execNr21 (duty : BitVec 2) (length : BitVec 6) (s : State) : Host.Outcome State Fault Refusal :=
  s.written { s.mixer with tone2 := toneSetLengthDuty s.mixer.tone2 length duty }

/-- NR22 (R111). -/
def execNr22 (initial : BitVec 4) (increase : Bool) (n : BitVec 3) (s : State) : Host.Outcome State Fault Refusal :=
  s.written { s.mixer with tone2 := toneSetEnvelope s.mixer.tone2 initial increase n }

/-- NR23 (R112). -/
def execNr23 (flo : BitVec 8) (s : State) : Host.Outcome State Fault Refusal :=
  s.written { s.mixer with tone2 := toneSetFreqLow s.mixer.tone2 flo }

/-- NR24 (R113). -/
def execNr24 (trigger single : Bool) (_ignored : BitVec 3) (fhi : BitVec 3) (s : State) :
    Host.Outcome State Fault Refusal :=
  s.written { s.mixer with tone2 := toneSetFreqHigh s.mixer.tone2 trigger single fhi }

end Sys2Proof.Machine
end

