-- ==== Sys2Proof/Machine/WaveRegisters.lean ====
section
/-!
DEFINITION. Writes to the wave channel registers, to wave RAM and to unmapped addresses (spec/44_register_writes.md R114–R119,
R127): accepted, without effect.
-/

namespace Sys2Proof.Machine

/-- A write that is accepted and has no effect: it returns nothing and the block stays as it was (R53). -/
def ignoredWrite (s : State) : Host.Outcome State Fault Refusal :=
  s.written s.mixer

/-- NR30 (R114). -/
def execNr30 (_ignored : Byte) (s : State) : Host.Outcome State Fault Refusal :=
  ignoredWrite s

/-- NR31 (R115). -/
def execNr31 (_ignored : Byte) (s : State) : Host.Outcome State Fault Refusal :=
  ignoredWrite s

/-- NR32 (R116). -/
def execNr32 (_ignored : Byte) (s : State) : Host.Outcome State Fault Refusal :=
  ignoredWrite s

/-- NR33 (R117). -/
def execNr33 (_ignored : Byte) (s : State) : Host.Outcome State Fault Refusal :=
  ignoredWrite s

/-- NR34 (R118). -/
def execNr34 (_ignored : Byte) (s : State) : Host.Outcome State Fault Refusal :=
  ignoredWrite s

/-- A wave RAM byte (R119). -/
def execWaveram (_index : BitVec 4) (_ignored : Byte) (s : State) : Host.Outcome State Fault Refusal :=
  ignoredWrite s

/-- Any other address (R127): "silently ignored". -/
def execUnmapped (_addr : Addr) (_ignored : Byte) (s : State) : Host.Outcome State Fault Refusal :=
  ignoredWrite s

end Sys2Proof.Machine
end

