-- ==== Sys2Proof/Machine/Dispatch.lean ====
section
/-!
DEFINITION. The meaning of every operation: one arm per constructor of Instr (spec/30_encoding.md R42).
-/

namespace Sys2Proof.Machine

def exec (i : Instr) (s : State) : Host.Outcome State Fault Refusal :=
  match i with
  | .nr10 ignored time addition shift => Sys2Proof.Machine.execNr10 ignored time addition shift s
  | .nr11 duty length => Sys2Proof.Machine.execNr11 duty length s
  | .nr12 initial increase n => Sys2Proof.Machine.execNr12 initial increase n s
  | .nr13 flo => Sys2Proof.Machine.execNr13 flo s
  | .nr14 trigger single ignored fhi => Sys2Proof.Machine.execNr14 trigger single ignored fhi s
  | .nr21 duty length => Sys2Proof.Machine.execNr21 duty length s
  | .nr22 initial increase n => Sys2Proof.Machine.execNr22 initial increase n s
  | .nr23 flo => Sys2Proof.Machine.execNr23 flo s
  | .nr24 trigger single ignored fhi => Sys2Proof.Machine.execNr24 trigger single ignored fhi s
  | .nr30 ignored => Sys2Proof.Machine.execNr30 ignored s
  | .nr31 ignored => Sys2Proof.Machine.execNr31 ignored s
  | .nr32 ignored => Sys2Proof.Machine.execNr32 ignored s
  | .nr33 ignored => Sys2Proof.Machine.execNr33 ignored s
  | .nr34 ignored => Sys2Proof.Machine.execNr34 ignored s
  | .waveram index ignored => Sys2Proof.Machine.execWaveram index ignored s
  | .nr41 ignored length => Sys2Proof.Machine.execNr41 ignored length s
  | .nr42 initial increase n => Sys2Proof.Machine.execNr42 initial increase n s
  | .nr43 shiftClock smallStep prescale => Sys2Proof.Machine.execNr43 shiftClock smallStep prescale s
  | .nr44 trigger single ignored => Sys2Proof.Machine.execNr44 trigger single ignored s
  | .nr50 ignored7 right ignored3 left => Sys2Proof.Machine.execNr50 ignored7 right ignored3 left s
  | .nr51 rightEn leftEn => Sys2Proof.Machine.execNr51 rightEn leftEn s
  | .nr52 on ignored => Sys2Proof.Machine.execNr52 on ignored s
  | .unmapped addr ignored => Sys2Proof.Machine.execUnmapped addr ignored s
  | .tick => Sys2Proof.Machine.execTick s
  | .next sampleRate => Sys2Proof.Machine.execNext sampleRate s
  | .init => Sys2Proof.Machine.execInit s
  | .setScale target v => Sys2Proof.Machine.execSetScale target v s
  | .ctick c => Sys2Proof.Machine.execCtick c s
  | .cnext c sampleRate => Sys2Proof.Machine.execCnext c sampleRate s

end Sys2Proof.Machine
end

