-- ==== Sys2Proof/Machine/Step.lean ====
section
/-!
DEFINITION. One step: the head of the host's operation stream is decoded and applied (spec/20_memory.md R37,
spec/30_encoding.md R42).
-/

namespace Sys2Proof.Machine

/-- One step of the machine. -/
def step (s : State) : Host.Outcome State Fault Refusal :=
  match fetch s with
  | none => idle s
  | some (.ok i, s') => exec i s'
  | some (.error e, _) => .refused (refusalOf e)

/-- `s` with the instruction of the given table bits issued as the next operation (log entries 1 and 7). -/
def State.withFetchWord (s : State) (nbits w : Nat) : State :=
  { s with stream := inputOfTableWord nbits w :: s.stream }

end Sys2Proof.Machine
end

