-- ==== Sys2Proof/Machine/Text.lean ====
section
/-!
DEFINITION. The spec's textual form of operation streams (spec/30_encoding.md R55), its pseudo-operations and the
meaning of a replay-log line (R56). This is a front end: it writes streams, and no step reads it (log entry 14).
-/

namespace Sys2Proof.Machine

/-- The pending token put before the rest, unless it is empty; it was collected backwards. -/
def flushToken (cur : List Char) (rest : List String) : List String :=
  if cur.isEmpty then rest else String.ofList cur.reverse :: rest

/-- The tokens of one line: blanks separate, a comma is a token of its own, `;` starts a comment (R55). -/
def lexLine : List Char → List Char → List String
  | [], cur => flushToken cur []
  | c :: cs, cur =>
    if c = ';' then flushToken cur []
    else if c = ' ' || c = '\t' || c = '\r' then flushToken cur (lexLine cs [])
    else if c = ',' then flushToken cur ("," :: lexLine cs [])
    else lexLine cs (c :: cur)

/-- The digit characters in the order of their values; R55 and R56 use bases 10 and 16. -/
def digitChars : List Char :=
  "0123456789abcdef".toList

/-- The value a character has as a digit, in either case; below 16 when there is one. -/
def digitValue (c : Char) : Option Nat :=
  digitChars.idxOf? c.toLower

/-- One more digit of the base after the number read so far. -/
def appendDigit (base : Nat) (acc : Option Nat) (c : Char) : Option Nat :=
  acc.bind fun n => (digitValue c).bind fun d => if d < base then some (n * base + d) else none

/-- A non-empty run of digits of the base. -/
def digits (base : Nat) (cs : List Char) : Option Nat :=
  if cs.isEmpty then none else cs.foldl (appendDigit base) (some 0)

/-- A number: decimal, or `0x` and hexadecimal (R55). -/
def natOfChars : List Char → Option Nat
  | '0' :: 'x' :: cs => digits 16 cs
  | cs => digits 10 cs

/-- A number token of at most `bits` bits. -/
def readNat (bits : Nat) (t : String) : Option (BitVec bits) :=
  match natOfChars t.toList with
  | some n => if n < 2 ^ bits then some (BitVec.ofNat bits n) else none
  | none => none

/-- A signed 32-bit number token, a leading `-` for a negative one. -/
def readI32 (t : String) : Option I32 :=
  match t.toList with
  | '-' :: cs =>
    match natOfChars cs with
    | some n => if n ≤ 2 ^ 31 then some (BitVec.ofInt 32 (-(n : Int))) else none
    | none => none
  | cs =>
    match natOfChars cs with
    | some n => if n < 2 ^ 31 then some (BitVec.ofNat 32 n) else none
    | none => none

/-- The register names of R22. -/
def registerNames : List (String × Addr) :=
  [("NR10", 0xFF10), ("NR11", 0xFF11), ("NR12", 0xFF12), ("NR13", 0xFF13), ("NR14", 0xFF14),
   ("NR21", 0xFF16), ("NR22", 0xFF17), ("NR23", 0xFF18), ("NR24", 0xFF19),
   ("NR30", 0xFF1A), ("NR31", 0xFF1B), ("NR32", 0xFF1C), ("NR33", 0xFF1D), ("NR34", 0xFF1E)] ++
  [("NR41", 0xFF20), ("NR42", 0xFF21), ("NR43", 0xFF22), ("NR44", 0xFF23),
   ("NR50", 0xFF24), ("NR51", 0xFF25), ("NR52", 0xFF26)]

/-- A register by name or by address (R55). -/
def readRegister (t : String) : Option Addr :=
  match registerNames.lookup t with
  | some a => some a
  | none => readNat 16 t

/-- A channel name. -/
def readChannel (t : String) : Option Channel :=
  if t = "tone1" then some .tone1
  else if t = "tone2" then some .tone2
  else if t = "noise" then some .noise
  else none

/-- A scale target's name. -/
def readTarget (t : String) : Option ScaleTarget :=
  if t = "mixer" then some .mixer
  else if t = "tone1" then some .tone1
  else if t = "tone2" then some .tone2
  else none

/-- The tone channel number of the pseudo-operations, 1 or 2 (R56). -/
inductive ToneNumber
  | one
  | two
deriving DecidableEq, Repr

/-- A tone channel number, written as any number of R55, decimal or hexadecimal (DEDUCED, log entry 14). -/
def readToneNumber (t : String) : Option ToneNumber :=
  match natOfChars t.toList with
  | some 1 => some .one
  | some 2 => some .two
  | _ => none

/-- The `single` bit of a pseudo-operation, 0 or 1 (R56), written as any number of R55 (DEDUCED, log entry 14). -/
def readSingle (t : String) : Option Bool :=
  match natOfChars t.toList with
  | some 0 => some false
  | some 1 => some true
  | _ => none

/-- `WR addr, value` as a term of the stream. -/
def writeCall (addr : Addr) (value : Byte) : Call :=
  .wr (wrWord addr value)

/-- The addresses of `NRch3` and `NRch4` (R22). -/
def freqLowAddr : ToneNumber → Addr
  | .one => 0xFF13
  | .two => 0xFF18

/-- See `freqLowAddr`. -/
def freqHighAddr : ToneNumber → Addr
  | .one => 0xFF14
  | .two => 0xFF19

/-- `(s << 6)` as a byte. -/
def singleBit (single : Bool) : Byte :=
  if single then 0x40 else 0

/-- `SETF ch, f, s` (R56). -/
def setF (ch : ToneNumber) (f : BitVec 11) (single : Bool) : List Call :=
  [writeCall (freqLowAddr ch) (field f 0 8),
   writeCall (freqHighAddr ch) (singleBit single ||| (field f 8 3).setWidth 8)]

/-- `TRIG ch, f, s` (R56). -/
def trig (ch : ToneNumber) (f : BitVec 11) (single : Bool) : List Call :=
  [writeCall (freqLowAddr ch) (field f 0 8),
   writeCall (freqHighAddr ch) (0x80 ||| singleBit single ||| (field f 8 3).setWidth 8)]

/-- `TRIGN s` (R56). -/
def trigN (single : Bool) : List Call :=
  [writeCall 0xFF23 (0x80 ||| singleBit single)]

/-- `POWERON` (R56). -/
def powerOn : List Call :=
  [writeCall 0xFF26 0x80]

/-- `POWEROFF` (R56). -/
def powerOff : List Call :=
  [writeCall 0xFF26 0x00]

/-- `TICKS n` (R56). -/
def ticks (n : Nat) : List Call :=
  List.replicate n (encode .tick)

/-- `CTICKS c, n` (R56). -/
def cticks (c : Channel) (n : Nat) : List Call :=
  List.replicate n (encode (.ctick c))

/-- The calls a tokenised line stands for; `none` when it is no operation and no pseudo-operation. -/
def parseTokens : List String → Option (List Call)
  | [] => some []
  | ["TICK"] => some [encode .tick]
  | ["INIT"] => some [encode .init]
  | ["POWERON"] => some powerOn
  | ["POWEROFF"] => some powerOff
  | [op, a] =>
    if op = "NEXT" then (readNat 32 a).map fun r => [encode (.next r)]
    else if op = "CTICK" then (readChannel a).map fun c => [encode (.ctick c)]
    else if op = "TICKS" then (natOfChars a.toList).map ticks
    else if op = "TRIGN" then (readSingle a).map trigN
    else none
  | [op, a, ",", b] =>
    if op = "WR" then (readRegister a).bind fun r => (readNat 8 b).map fun v => [writeCall r v]
    else if op = "SCALE" then (readTarget a).bind fun t => (readI32 b).map fun v => [encode (.setScale t v)]
    else if op = "CNEXT" then (readChannel a).bind fun c => (readNat 32 b).map fun r => [encode (.cnext c r)]
    else if op = "CTICKS" then (readChannel a).bind fun c => (natOfChars b.toList).map fun n => cticks c n
    else none
  | [op, a, ",", b, ",", c] =>
    if op = "SETF" then
      (readToneNumber a).bind fun ch => (readNat 11 b).bind fun f => (readSingle c).map fun s => setF ch f s
    else if op = "TRIG" then
      (readToneNumber a).bind fun ch => (readNat 11 b).bind fun f => (readSingle c).map fun s => trig ch f s
    else none
  | _ => none

/-- One line of a stream. A line that is no operation becomes a call of that name, which the decoder does not know, so
the step refuses it as `UnknownOperation` (R137). -/
def assembleLine (line : String) : List Call :=
  match parseTokens (lexLine line.toList []) with
  | some calls => calls
  | none => [.host line []]

/-- A program in the spec's notation, line by line (R55). -/
def assemble (lines : List String) : List Call :=
  lines.flatMap assembleLine

/-- One line of a replay log: at tick count `t`, `WR addr, value` (R56). -/
structure LogLine where
  t : Nat
  addr : Addr
  value : Byte
deriving DecidableEq, Repr

/-- Three hexadecimal numbers separated by blanks (R56). -/
def readLogLine (line : String) : Option LogLine :=
  match lexLine line.toList [] with
  | [t, a, v] =>
    (digits 16 t.toList).bind fun t =>
      (digits 16 a.toList).bind fun a =>
        (digits 16 v.toList).bind fun v =>
          if a < 2 ^ 16 && v < 2 ^ 8 then some ⟨t, BitVec.ofNat 16 a, BitVec.ofNat 8 v⟩ else none
  | _ => none

/-- The stream of `n` TICKs played with a log when `k` TICKs have been applied already: before each TICK every pending
line with `t ≤ k` is issued, in file order (R56). -/
def replay : Nat → Nat → List LogLine → List Call
  | 0, _, _ => []
  | n + 1, k, lines =>
    (lines.filter fun l => decide (l.t ≤ k)).map (fun l => writeCall l.addr l.value) ++
      encode .tick :: replay n (k + 1) (lines.filter fun l => decide (k < l.t))

/-- The queuing discipline of R134: writes issued during a pull are applied after the pull's last tick. -/
def queuedDuring (pull : Call) (writes : List Call) : List Call :=
  pull :: writes

/-- The host issues the calls one after the other (R37). -/
def State.issue (s : State) (calls : List Call) : State :=
  { s with stream := s.stream ++ calls.map .one }

end Sys2Proof.Machine
end

