-- ==== Sys2Proof/Safety.lean ====
section
/-!
DEFINITION. What counts as a good state and a safe run: the invariants of spec/10_state.md R24, R14 and R18, and runs
without a refusal (spec/60_exceptions.md R137: "a claim about a run holds only if no refusal is recorded").
-/

namespace Sys2Proof.Machine

/-- The divider has the shift its instance was given and a remainder below `2^shift` (R14, R24 item 1). -/
abbrev ClockDivider.Good (d : ClockDivider) (shift : Nat) : Prop :=
  d.shift.toNat = shift ∧ d.remainder.toNat < 2 ^ shift

/-- R24 items 1 and 2 for a tone channel; item 3 holds by the widths of the fields. -/
abbrev ToneChannel.Good (T : ToneChannel) : Prop :=
  (T.divApu.Good 0 ∧ T.divSeq.Good 11 ∧ T.divSweep.Good 2 ∧ T.divLen.Good 1 ∧ T.divEnv.Good 3) ∧
  T.phaseCount.toNat ≤ 2047 ∧ T.len.count.toNat ≤ 63 ∧ T.env.count.toNat ≤ 6 ∧ T.sweep.count.toNat ≤ 6

/-- R24 items 1, 2 and 4 for the noise channel. -/
abbrev NoiseChannel.Good (N : NoiseChannel) : Prop :=
  (N.divSeq.Good 11 ∧ N.divLen.Good 1 ∧ N.divEnv.Good 3) ∧
  (N.len.count.toNat ≤ 63 ∧ N.env.count.toNat ≤ 6 ∧ N.prescaleCount.toNat ≤ 6 ∧ N.shiftCount.toNat ≤ 2 ^ 15 - 1) ∧
  (N.running = true → 1 ≤ N.lfsr.toNat) ∧ N.lfsr.toNat ≤ 0x7FFF

/-- R24 for the whole block. -/
abbrev State.Good (s : State) : Prop :=
  s.mixer.tone1.Good ∧ s.mixer.tone2.Good ∧ s.mixer.noise.Good

/-- R18: no register writes the sweep fields of channel 2, and its sweep is off. -/
abbrev State.Tone2Unswept (s : State) : Prop :=
  s.mixer.tone2.sweep.time = 0#3 ∧ s.mixer.tone2.sweep.enabled = false

/-- The next state of an outcome, if there is one. -/
def nextState : Host.Outcome State Fault Refusal → Option State
  | .next s => some s
  | .fault _ => none
  | .refused _ => none

/-- The refusal of an outcome, if there is one. -/
def refusal : Host.Outcome State Fault Refusal → Option Refusal
  | .next _ => none
  | .fault _ => none
  | .refused r => some r

/-- A run of `k` steps without a refusal. -/
def SafeRun (k : Nat) (s : State) : Prop :=
  ∃ s', Sys2Proof.core.run k s = .next s'

/-- What the host receives from `k` steps, oldest first; it ends at a refusal. -/
def outputs : Nat → State → List Result
  | 0, _ => []
  | k + 1, s =>
    match step s with
    | .next s' => s'.result :: outputs k s'
    | .fault _ => []
    | .refused _ => []

/-- The operations of a list applied one by one (R37). -/
def execAll : List Instr → State → Host.Outcome State Fault Refusal
  | [], s => .next s
  | i :: is, s =>
    match exec i s with
    | .next s' => execAll is s'
    | .fault r => .fault r
    | .refused r => .refused r

end Sys2Proof.Machine
end

