-- ==== Sys2Proof/Certificates/Slice0/Obligations.lean ====
section
/-!
DEFINITION. The statements for the provers. Each docstring names the rule or the spec's decision it formalises; where a
clause rests on a decision of spec/92_eei_decisions.md (D<n>) or on a log entry of this model, the docstring says so.
-/

open Sys2Proof Sys2Proof.Machine

/-! ### Decoding, encoding, and the step -/

/-- Decode and encode agree on every well-formed operation, with every operand at every value (R43–R53; the addresses
are decision D1, the named calls of format H are log entry 4). -/
def Obligations.DecodeInvertsEncode : Prop :=
  ∀ i : Instr, i.wellFormed = true → decode (.one (encode i)) = .ok i

/-- Every 24-bit word is a well-formed register write, and no bit of it is dropped (R43: "All 2^24 words are valid WR
operations"; formats R45, no illegal word R53; the addresses are D1, and that ignored bits are kept as operands is log
entry 10). -/
def Obligations.EncodeInvertsDecodeOnWords : Prop :=
  ∀ w : WrWord, (decodeWord w).wellFormed = true ∧ encode (decodeWord w) = .wr w

/-- The decoder takes the first row of the opcode table whose bits the word has (R52, R127; addresses D1). -/
def Obligations.DecoderTakesTheFirstMatchingRow : Prop :=
  ∀ w : WrWord, (opcodeRows.find? fun r => r.hits w).map OpcodeRow.mnemonic = some (decodeWord w).mnemonic

/-- The fields of every register byte, as numbers (R45–R48; addresses D1, the layouts of NR41, NR43, NR44, NR51 and NR52
are D2–D6). -/
def Obligations.RegisterFieldsAreCutFromTheByte : Prop :=
  ∀ v : Byte, let n := v.toNat
    decodeWord (0xFF10#16 ++ v) = .nr10 (.ofNat 1 (n / 128)) (.ofNat 3 (n / 16)) (n / 8 % 2 == 0) (.ofNat 3 n) ∧
    (decodeWord (0xFF11#16 ++ v) = .nr11 (.ofNat 2 (n / 64)) (.ofNat 6 n) ∧
      decodeWord (0xFF16#16 ++ v) = .nr21 (.ofNat 2 (n / 64)) (.ofNat 6 n)) ∧
    (decodeWord (0xFF12#16 ++ v) = .nr12 (.ofNat 4 (n / 16)) (n / 8 % 2 == 1) (.ofNat 3 n) ∧
      decodeWord (0xFF17#16 ++ v) = .nr22 (.ofNat 4 (n / 16)) (n / 8 % 2 == 1) (.ofNat 3 n) ∧
      decodeWord (0xFF21#16 ++ v) = .nr42 (.ofNat 4 (n / 16)) (n / 8 % 2 == 1) (.ofNat 3 n)) ∧
    (decodeWord (0xFF13#16 ++ v) = .nr13 v ∧ decodeWord (0xFF18#16 ++ v) = .nr23 v) ∧
    (decodeWord (0xFF14#16 ++ v) =
        .nr14 (n / 128 % 2 == 1) (n / 64 % 2 == 1) (.ofNat 3 (n / 8)) (.ofNat 3 n) ∧
      decodeWord (0xFF19#16 ++ v) =
        .nr24 (n / 128 % 2 == 1) (n / 64 % 2 == 1) (.ofNat 3 (n / 8)) (.ofNat 3 n)) ∧
    (decodeWord (0xFF20#16 ++ v) = .nr41 (.ofNat 2 (n / 64)) (.ofNat 6 n) ∧
      decodeWord (0xFF22#16 ++ v) = .nr43 (.ofNat 4 (n / 16)) (n / 8 % 2 == 1) (.ofNat 3 n) ∧
      decodeWord (0xFF23#16 ++ v) = .nr44 (n / 128 % 2 == 1) (n / 64 % 2 == 1) (.ofNat 6 n)) ∧
    (decodeWord (0xFF24#16 ++ v) = .nr50 (.ofNat 1 (n / 128)) (.ofNat 3 (n / 16)) (.ofNat 1 (n / 8)) (.ofNat 3 n) ∧
      decodeWord (0xFF25#16 ++ v) = .nr51 (.ofNat 4 (n / 16)) (.ofNat 4 n) ∧
      decodeWord (0xFF26#16 ++ v) = .nr52 (n / 128 % 2 == 1) (.ofNat 7 n))

/-- Words written out as examples in spec/44_register_writes.md, one family each, and the CNEXT call of vector V8 decode
to what they stand for (addresses D1, the layouts of NR43 and NR51 D3 and D6, format H D33). -/
def Obligations.SpecExampleWordsDecode : Prop :=
  decodeWord 0xFF1011#24 = .nr10 0 1 true 1 ∧ decodeWord 0xFF1986#24 = .nr24 true false 0 6 ∧
  decodeWord 0xFF3A5C#24 = .waveram 0xA 0x5C ∧ decodeWord 0xFF2208#24 = .nr43 0 true 0 ∧
  decodeWord 0xFF2511#24 = .nr51 1 1 ∧ decodeWord 0xFF1580#24 = .unmapped 0xFF15 0x80 ∧
  decode (.one (.host "CNEXT" [.component .tone1, .u32 44100])) = .ok (.cnext .tone1 44100)

/-- A step decodes the head of the stream and is exec of the decoded operation on the state with that term taken off
(R37, R42; the stream is log entry 1). With nothing issued the step changes nothing (log entry 2, the model's choice). -/
def Obligations.StepRunsTheDecodedOperation : Prop :=
  (∀ (s : State) (input : Input) (rest : List Input) (i : Instr),
    s.stream = input :: rest → decode input = .ok i → step s = exec i { s with stream := rest }) ∧
  ∀ s : State, s.stream = [] → step s = .next s

/-- R137 `UnknownOperation` and `Unserialized`: overlapping operations, and every call whose name and arguments are not
those of a host operation of R42, are refused (D21, D36; the terms are log entries 4 and 5). That an overlapping term is
refused as `Unserialized` also when one of its calls is no operation is the model's choice, log entry 5. -/
def Obligations.TermsThatAreNoOperationAreRefused : Prop :=
  (∀ (s : State) (a b : Call) (rest : List Input),
    s.stream = .overlapping a b :: rest → step s = .refused .Unserialized) ∧
  ∀ (s : State) (name : String) (args : List Arg) (rest : List Input),
    s.stream = .one (.host name args) :: rest →
    ¬ ((name = "TICK" ∧ args = []) ∨ (name = "INIT" ∧ args = []) ∨
      (name = "NEXT" ∧ ∃ r, args = [.u32 r]) ∨
      (name = "SET_SCALE" ∧ ∃ c v, c ≠ Component.noise ∧ args = [.component c, .i32 v]) ∨
      (name = "CTICK" ∧ ∃ c, c ≠ Component.mixer ∧ args = [.component c]) ∨
      (name = "CNEXT" ∧ ∃ c r, c ≠ Component.mixer ∧ args = [.component c, .u32 r])) →
    step s = .refused .UnknownOperation

/-! ### Register writes: the whole next state -/

/-- NR10 (R75, R105): the three sweep settings of tone1 and nothing else, so `sweep_enabled` and the count stay
(D31). -/
def Obligations.Nr10SetsTheSweep : Prop :=
  ∀ (x : BitVec 1) (time : BitVec 3) (addition : Bool) (shift : BitVec 3) (s : State),
    exec (.nr10 x time addition shift) s = .next { s with
      mixer := { s.mixer with tone1 := { s.mixer.tone1 with
        sweep := { s.mixer.tone1.sweep with time := time, addition := addition, shift := shift } } }
      result := .none }

/-- NR11 and NR21 (R76, R106, R110): length and duty of the channel and nothing else (D31). -/
def Obligations.LengthDutyWritesSetLengthAndDuty : Prop :=
  ∀ (duty : BitVec 2) (length : BitVec 6) (s : State),
    exec (.nr11 duty length) s = .next { s with
      mixer := { s.mixer with tone1 := { s.mixer.tone1 with
        len := { s.mixer.tone1.len with length := length }, duty := duty } }
      result := .none } ∧
    exec (.nr21 duty length) s = .next { s with
      mixer := { s.mixer with tone2 := { s.mixer.tone2 with
        len := { s.mixer.tone2.len with length := length }, duty := duty } }
      result := .none }

/-- NR12, NR22 and NR42 (R77, R107, R111, R121): the three envelope settings, and `amplitude` loaded at once (D13);
the count stays. -/
def Obligations.EnvelopeWritesLoadTheAmplitude : Prop :=
  ∀ (initial : BitVec 4) (increase : Bool) (n : BitVec 3) (s : State),
    let load (u : EnvelopeUnit) : EnvelopeUnit := ⟨u.count, initial, increase, n, initial⟩
    exec (.nr12 initial increase n) s = .next { s with
      mixer := { s.mixer with tone1 := { s.mixer.tone1 with env := load s.mixer.tone1.env } }
      result := .none } ∧
    exec (.nr22 initial increase n) s = .next { s with
      mixer := { s.mixer with tone2 := { s.mixer.tone2 with env := load s.mixer.tone2.env } }
      result := .none } ∧
    exec (.nr42 initial increase n) s = .next { s with
      mixer := { s.mixer with noise := { s.mixer.noise with env := load s.mixer.noise.env } }
      result := .none }

/-- R49, R78: NR13 and NR23 replace the low eight bits of `gbfreq`, keep the high three, and change nothing else; NR14
and NR24 replace the high three bits and keep the low eight (their other effects: `FrequencyHighWritesTrigger`). -/
def Obligations.FrequencyIsAssembledFromTwoWrites : Prop :=
  (∀ (flo : Byte) (s : State),
    exec (.nr13 flo) s = .next { s with
      mixer := { s.mixer with tone1 := { s.mixer.tone1 with
        gbfreq := .ofNat 11 (s.mixer.tone1.gbfreq.toNat / 256 * 256 + flo.toNat) } }
      result := .none } ∧
    exec (.nr23 flo) s = .next { s with
      mixer := { s.mixer with tone2 := { s.mixer.tone2 with
        gbfreq := .ofNat 11 (s.mixer.tone2.gbfreq.toNat / 256 * 256 + flo.toNat) } }
      result := .none }) ∧
  ∀ (trigger single : Bool) (x fhi : BitVec 3) (s : State), ∃ t u,
    exec (.nr14 trigger single x fhi) s = .next t ∧
    t.mixer.tone1.gbfreq.toNat = fhi.toNat * 256 + s.mixer.tone1.gbfreq.toNat % 256 ∧
    exec (.nr24 trigger single x fhi) s = .next u ∧
    u.mixer.tone2.gbfreq.toNat = fhi.toNat * 256 + s.mixer.tone2.gbfreq.toNat % 256

/-- NR14 and NR24 (R74, R79, R109, R113): the high three bits of `gbfreq`; `repeat` always; and with the trigger bit
`running`, the three counts and, if `sweep_time ≠ 0`, `sweep_enabled` (D9). The dividers, the duty phase and the
amplitude stay (D13, D14). -/
def Obligations.FrequencyHighWritesTrigger : Prop :=
  ∀ (trigger single : Bool) (x fhi : BitVec 3) (s : State),
    let write (T : ToneChannel) : ToneChannel := { T with
      running := if trigger then true else T.running
      sweep := { T.sweep with
        enabled := if trigger = true ∧ T.sweep.time ≠ 0#3 then true else T.sweep.enabled
        count := if trigger then 0 else T.sweep.count }
      len := ⟨if trigger then 0 else T.len.count, T.len.length, !single⟩
      env := { T.env with count := if trigger then 0 else T.env.count }
      gbfreq := .ofNat 11 (fhi.toNat * 256 + T.gbfreq.toNat % 256) }
    exec (.nr14 trigger single x fhi) s = .next { s with
      mixer := { s.mixer with tone1 := write s.mixer.tone1 }, result := .none } ∧
    exec (.nr24 trigger single x fhi) s = .next { s with
      mixer := { s.mixer with tone2 := write s.mixer.tone2 }, result := .none }

/-- NR30–NR34, wave RAM and every unmapped address (R114–R119, R127; addresses D1): accepted, and the block is
unchanged. -/
def Obligations.WaveAndUnmappedWritesChangeNothing : Prop :=
  ∀ (v : Byte) (index : BitVec 4) (a : Addr) (s : State),
    exec (.nr30 v) s = .next { s with result := .none } ∧ exec (.nr31 v) s = .next { s with result := .none } ∧
    exec (.nr32 v) s = .next { s with result := .none } ∧ exec (.nr33 v) s = .next { s with result := .none } ∧
    exec (.nr34 v) s = .next { s with result := .none } ∧
    exec (.waveram index v) s = .next { s with result := .none } ∧
    exec (.unmapped a v) s = .next { s with result := .none }

/-- NR41 and NR43 (R91, R92, R120, R122; layouts D2, D3): the settings of the noise channel, no counter and no LFSR bit
changes (D31). -/
def Obligations.NoiseSettingWritesKeepTheCounters : Prop :=
  ∀ (x : BitVec 2) (length : BitVec 6) (shiftClock : BitVec 4) (smallStep : Bool) (prescale : BitVec 3) (s : State),
    exec (.nr41 x length) s = .next { s with
      mixer := { s.mixer with noise := { s.mixer.noise with
        len := { s.mixer.noise.len with length := length } } }
      result := .none } ∧
    exec (.nr43 shiftClock smallStep prescale) s = .next { s with
      mixer := { s.mixer with noise := { s.mixer.noise with
        shiftClock := shiftClock, smallStep := smallStep, prescale := prescale } }
      result := .none }

/-- NR44 (R90, R123; layout and `repeat` D4): with the trigger bit the channel runs from `lfsr = 1`, `last = 0` and
four zero counts; `repeat` is written always; the amplitude and the dividers stay (D13, D14). -/
def Obligations.NoiseTriggerReseedsTheLfsr : Prop :=
  ∀ (single : Bool) (x : BitVec 6) (s : State),
    exec (.nr44 true single x) s = .next { s with
      mixer := { s.mixer with noise := { s.mixer.noise with
        running := true, lfsr := 1, last := 0, prescaleCount := 0, shiftCount := 0
        len := ⟨0, s.mixer.noise.len.length, !single⟩
        env := { s.mixer.noise.env with count := 0 } } }
      result := .none } ∧
    exec (.nr44 false single x) s = .next { s with
      mixer := { s.mixer with noise := { s.mixer.noise with
        len := { s.mixer.noise.len with repeats := !single } } }
      result := .none }

/-- R100: NR50 sets the right volume from bits 6..4 and the left one from bits 2..0, and nothing else. That 0xFF24 is
NR50's address is decision D1. -/
def Obligations.MasterVolumeWriteSetsBothVolumes : Prop :=
  (∀ v : Byte, ∃ x7 x3, decodeWord (0xFF24#16 ++ v) = .nr50 x7 (.ofNat 3 (v.toNat / 16)) x3 (.ofNat 3 v.toNat)) ∧
  ∀ (x7 x3 : BitVec 1) (right left : BitVec 3) (s : State),
    exec (.nr50 x7 right x3 left) s = .next { s with
      mixer := { s.mixer with volumeRight := right, volumeLeft := left }, result := .none }

/-- NR51 (R101, R125; bit order D6, slots D32): all four masks are replaced, bit 1 left from the low nibble, bit 0 right
from the high one. -/
def Obligations.RoutingWriteReplacesAllMasks : Prop :=
  ∀ (rightEn leftEn : BitVec 4) (s : State),
    let mask (k : Nat) : BitVec 2 := .ofNat 2 (leftEn.toNat / 2 ^ k % 2 * 2 + rightEn.toNat / 2 ^ k % 2)
    exec (.nr51 rightEn leftEn) s = .next { s with
      mixer := { s.mixer with terminal := ⟨mask 0, mask 1, mask 2, mask 3⟩ }, result := .none }

/-- NR52 (R102, R126; layout and effect D5): the power flag and nothing else. -/
def Obligations.PowerWriteSetsOnlyTheFlag : Prop :=
  ∀ (on : Bool) (x : BitVec 7) (s : State),
    exec (.nr52 on x) s = .next { s with mixer := { s.mixer with enabled := on }, result := .none }

/-- R53 for register writes, and R104's "No WR raises an exception": every 24-bit word completes in every state, returns
nothing and leaves the host's stream alone. -/
def Obligations.EveryWriteWordCompletes : Prop :=
  ∀ (w : WrWord) (s : State), ∃ t, exec (decodeWord w) s = .next t ∧ t.result = .none ∧ t.stream = s.stream

/-- R34: "Writing the same byte to the same register twice in a row, with no tick between, leaves the same state as
writing it once". -/
def Obligations.WritingTwiceIsWritingOnce : Prop :=
  ∀ (w : WrWord) (s t : State), exec (decodeWord w) s = .next t → exec (decodeWord w) t = .next t

/-- R104: a write "is applied whatever `mixer.enabled` holds" (D5): other than NR52, it does to a powered-off block
exactly what it does to a powered-on one. -/
def Obligations.WritesIgnoreThePowerFlag : Prop :=
  ∀ (w : WrWord) (b : Bool) (s t : State), (∀ on x, decodeWord w ≠ .nr52 on x) → exec (decodeWord w) s = .next t →
    exec (decodeWord w) { s with mixer := { s.mixer with enabled := b } } =
      .next { t with mixer := { t.mixer with enabled := b } }

/-! ### Host operations -/

/-- INIT (R128, R148; divider shifts D28): in any state, every field of the block at its reset value. -/
def Obligations.InitResetsTheBlock : Prop :=
  ∀ s : State, exec .init s = .next { s with mixer := Mixer.reset, result := .none }

/-- SET_SCALE (R131, D30): the target's scale is set absolutely and nothing else changes. -/
def Obligations.SetScaleSetsTheTarget : Prop :=
  ∀ (v : I32) (s : State),
    exec (.setScale .mixer v) s = .next { s with mixer := { s.mixer with scaleAmplitude := v }, result := .none } ∧
    exec (.setScale .tone1 v) s = .next { s with
      mixer := { s.mixer with tone1 := { s.mixer.tone1 with scaleAmplitude := v } }, result := .none } ∧
    exec (.setScale .tone2 v) s = .next { s with
      mixer := { s.mixer with tone2 := { s.mixer.tone2 with scaleAmplitude := v } }, result := .none }

/-- R137 `BadSampleRate` (D21): NEXT and CNEXT outside 1..2^20 are refused in every state. And R137
`DividerShiftRange`: while a channel runs with a shift of 32 or more in any divider that its tick steps, which no
reachable state has, its CTICK and its CNEXT at an admitted rate are refused, and so, powered, are TICK and NEXT; they
are refused before any effect by log entry 6. -/
def Obligations.BadRatesAndBadShiftsAreRefused : Prop :=
  (∀ (r : U32) (c : Channel) (s : State), r.toNat = 0 ∨ 2 ^ 20 < r.toNat →
    exec (.next r) s = .refused .BadSampleRate ∧ exec (.cnext c r) s = .refused .BadSampleRate) ∧
  ∀ (r : U32) (s : State), 1 ≤ r.toNat → r.toNat ≤ 2 ^ 20 →
    let wide (d : ClockDivider) : Prop := 32 ≤ d.shift.toNat
    let badTone (T : ToneChannel) : Prop :=
      T.running = true ∧ (wide T.divSeq ∨ wide T.divSweep ∨ wide T.divLen ∨ wide T.divEnv)
    let badNoise (N : NoiseChannel) : Prop :=
      N.running = true ∧ (wide N.divSeq ∨ wide N.divLen ∨ wide N.divEnv)
    let refuses (i : Instr) : Prop := exec i s = .refused .DividerShiftRange
    (badTone s.mixer.tone1 → refuses (.ctick .tone1) ∧ refuses (.cnext .tone1 r)) ∧
    (badTone s.mixer.tone2 → refuses (.ctick .tone2) ∧ refuses (.cnext .tone2 r)) ∧
    (badNoise s.mixer.noise → refuses (.ctick .noise) ∧ refuses (.cnext .noise r)) ∧
    (s.mixer.enabled = true → badTone s.mixer.tone1 ∨ badTone s.mixer.tone2 ∨ badNoise s.mixer.noise →
      refuses .tick ∧ refuses (.next r))

/-- R103, R147 (D5): powered off, TICK returns (0, 0), NEXT returns 0, and neither changes anything of the block. -/
def Obligations.PoweredOffPullsAreSilent : Prop :=
  ∀ (s : State) (r : U32), s.mixer.enabled = false → 1 ≤ r.toNat → r.toNat ≤ 2 ^ 20 →
    exec .tick s = .next { s with result := .stereo 0 0 } ∧
    exec (.next r) s = .next { s with result := .mono 0 }

/-- R65 (D10) and R82: a CTICK or CNEXT of a stopped channel returns 0 and changes nothing of the block, whatever the
power flag is (R132). -/
def Obligations.StoppedChannelsHoldAndReturnZero : Prop :=
  ∀ (s : State) (r : U32), 1 ≤ r.toNat → r.toNat ≤ 2 ^ 20 →
    (s.mixer.tone1.running = false → exec (.ctick .tone1) s = .next { s with result := .mono 0 } ∧
      exec (.cnext .tone1 r) s = .next { s with result := .mono 0 }) ∧
    (s.mixer.tone2.running = false → exec (.ctick .tone2) s = .next { s with result := .mono 0 } ∧
      exec (.cnext .tone2 r) s = .next { s with result := .mono 0 }) ∧
    (s.mixer.noise.running = false → exec (.ctick .noise) s = .next { s with result := .mono 0 } ∧
      exec (.cnext .noise r) s = .next { s with result := .mono 0 })

/-- CTICK (R132): it completes when the channel's dividers have shifts below 32 (R58; every reachable state,
`GoodIsKeptByEveryStep`), ticks the named channel alone and returns its raw sample. -/
def Obligations.ChannelTickAdvancesOneChannel : Prop :=
  ∀ s : State,
    (s.mixer.tone1.dividersInRange = true → exec (.ctick .tone1) s = .next { s with
      mixer := { s.mixer with tone1 := (toneTick s.mixer.tone1).2 }
      result := .mono (.ofInt 16 (toneTick s.mixer.tone1).1) }) ∧
    (s.mixer.tone2.dividersInRange = true → exec (.ctick .tone2) s = .next { s with
      mixer := { s.mixer with tone2 := (toneTick s.mixer.tone2).2 }
      result := .mono (.ofInt 16 (toneTick s.mixer.tone2).1) }) ∧
    (s.mixer.noise.dividersInRange = true → exec (.ctick .noise) s = .next { s with
      mixer := { s.mixer with noise := (noiseTick s.mixer.noise).2 }
      result := .mono (.ofInt 16 (noiseTick s.mixer.noise).1) })

/-- CNEXT (R81, R93, R133): in a good state and for an admitted rate it completes, and is `2^20 / sample_rate` CTICKs
of the channel one after the other, the last sample included. -/
def Obligations.ChannelNextIsItsTicks : Prop :=
  ∀ (c : Channel) (r : U32) (s : State), s.Good → 1 ≤ r.toNat → r.toNat ≤ 2 ^ 20 →
    ∃ t, exec (.cnext c r) s = .next t ∧ execAll (List.replicate (2 ^ 20 / r.toNat) (.ctick c)) s = .next t

/-- TICK while powered (R94–R96; routing bits D6, slots D32): it completes in a good state, advances each channel as
CTICK does, in any order, and returns the routed and scaled sum of the three samples. -/
def Obligations.TickMixesTheThreeChannelTicks : Prop :=
  ∀ s : State, s.Good → s.mixer.enabled = true →
    ∃ (a b c : State) (x y z : Sample),
      (exec (.ctick .tone1) s = .next a ∧ a.result = .mono x) ∧
      (exec (.ctick .tone2) a = .next b ∧ b.result = .mono y) ∧
      (exec (.ctick .noise) b = .next c ∧ c.result = .mono z) ∧
      let lane (k : Nat) : Int :=
        (if s.mixer.terminal.tone1.getLsbD k then x.toInt else 0) +
        (if s.mixer.terminal.tone2.getLsbD k then y.toInt else 0) +
        (if s.mixer.terminal.noise.getLsbD k then z.toInt else 0)
      ∃ l r : Sample, exec .tick s = .next { c with result := .stereo l r } ∧
        l.toInt = lane 1 * (s.mixer.volumeLeft.toNat + 1) ∧ r.toInt = lane 0 * (s.mixer.volumeRight.toNat + 1)

/-- NEXT (R98, R130; rounding and wrap D20, range D21): in a good state and for an admitted rate it completes, and is
`2^20 / sample_rate` TICKs one after the other, with the last pair averaged, scaled by `scale_amplitude / 512` with both
divisions truncating toward zero, and wrapped to 16 bits. -/
def Obligations.NextIsTicksThenScaling : Prop :=
  ∀ (q : U32) (s : State), s.Good → 1 ≤ q.toNat → q.toNat ≤ 2 ^ 20 →
    ∃ (u : State) (l r : Sample),
      execAll (List.replicate (2 ^ 20 / q.toNat) .tick) s = .next u ∧ u.result = .stereo l r ∧
      exec (.next q) s = .next { u with
        result := .mono (.ofInt 16 (((l.toInt + r.toInt).tdiv 2 * s.mixer.scaleAmplitude.toInt).tdiv 512)) }

/-- R97: the wave slot contributes 0 to both lanes on every tick, whatever `terminal[2]` holds. -/
def Obligations.WaveSlotIsSilent : Prop :=
  ∀ (s t : State) (m : BitVec 2), exec .tick s = .next t →
    exec .tick { s with mixer := { s.mixer with terminal := { s.mixer.terminal with wave := m } } } =
      .next { t with mixer := { t.mixer with terminal := { t.mixer.terminal with wave := m } } }

/-- R24 item 5 and R99: in every state the samples of CTICK and CNEXT lie in −15..15, both members of a TICK pair in
−360..360, and a NEXT sample is at most `360 × |scale_amplitude| / 512` while that fits 16 bits. -/
def Obligations.SamplesAreBounded : Prop :=
  ∀ s t : State,
    (∀ c v, exec (.ctick c) s = .next t → t.result = .mono v → -15 ≤ v.toInt ∧ v.toInt ≤ 15) ∧
    (∀ c r v, exec (.cnext c r) s = .next t → t.result = .mono v → -15 ≤ v.toInt ∧ v.toInt ≤ 15) ∧
    (∀ l r, exec .tick s = .next t → t.result = .stereo l r →
      (-360 ≤ l.toInt ∧ l.toInt ≤ 360) ∧ -360 ≤ r.toInt ∧ r.toInt ≤ 360) ∧
    (∀ r v, exec (.next r) s = .next t → t.result = .mono v → s.mixer.scaleAmplitude.toInt.natAbs ≤ 46603 →
      v.toInt.natAbs ≤ 360 * s.mixer.scaleAmplitude.toInt.natAbs / 512)

/-! ### The counting primitives -/

/-- `divider_init` (R57; the zeroed remainder is D28): the shift is the difference of the exponents, clamped at 0. And
`divider_step` (R58, R59; the 32-bit wrap is D19): quotient and remainder of the wrapped sum by `2^shift`. -/
def Obligations.DividerDividesByThePowerOfTwo : Prop :=
  (∀ inExp outExp : U32, (dividerInit inExp outExp).remainder = 0 ∧
    (dividerInit inExp outExp).shift.toNat = inExp.toNat - outExp.toNat) ∧
  ∀ (d : ClockDivider) (n : U32),
    (dividerStep d n).1.toNat = (d.remainder.toNat + n.toNat) % 2 ^ 32 / 2 ^ d.shift.toNat ∧
    (dividerStep d n).2.remainder.toNat = (d.remainder.toNat + n.toNat) % 2 ^ 32 % 2 ^ d.shift.toNat ∧
    (dividerStep d n).2.shift = d.shift

/-- R59, over any sequence of steps: the division is exact and drift-free. `N + 2^shift ≤ 2^32` keeps each sum below the
wrap (D19). -/
def Obligations.DividerNeverDrifts : Prop :=
  ∀ (ns : List U32) (d : ClockDivider), d.remainder.toNat < 2 ^ d.shift.toNat →
    (∀ n ∈ ns, n.toNat + 2 ^ d.shift.toNat ≤ 2 ^ 32) →
    let run := ns.foldl (fun (p : Nat × ClockDivider) n =>
      (p.1 + (dividerStep p.2 n).1.toNat, (dividerStep p.2 n).2)) (0, d)
    let total := d.remainder.toNat + (ns.map BitVec.toNat).sum
    run.1 = total / 2 ^ d.shift.toNat ∧ run.2.remainder.toNat = total % 2 ^ d.shift.toNat

/-- `counter_tick` (R60, whose body is D7), by cases. That a sum of 2^32 or more fires, in the second case, is log entry
13, the model's reading; no reachable state has such a sum. -/
def Obligations.CounterTickFiresAtTheThreshold : Prop :=
  ∀ (c : U32) (threshold : Nat) (n : U32),
    (n = 0 → counterTick c threshold n = (false, c)) ∧
    (n ≠ 0 → threshold ≤ c.toNat + n.toNat → counterTick c threshold n = (true, 0)) ∧
    (n ≠ 0 → c.toNat + n.toNat < threshold → threshold < 2 ^ 32 →
      (counterTick c threshold n).1 = false ∧ (counterTick c threshold n).2.toNat = c.toNat + n.toNat)

/-- R61: with one pulse a call and a constant threshold `t`, from count 0, the counter fires on calls `p, 2p, 3p, …`
with `p = max(t, 1)`, and on no other call. -/
def Obligations.CounterFiresEveryPeriod : Prop :=
  ∀ (t k : Nat), t < 2 ^ 32 →
    ((counterTick ((fun c => (counterTick c t 1).2)^[k] 0) t 1).1 = true ↔ max t 1 ∣ k + 1)

/-- R63: in running tick `k` the sequencer, length, sweep and envelope dividers fire iff 2048, 4096, 8192 or 16384
divide `k`, counted from a state with zero remainders; so after `k` running ticks the remainders are these. -/
def Obligations.SubclocksFollowTheSchedule : Prop :=
  ∀ (T : ToneChannel) (N : NoiseChannel) (k : Nat),
    (T.divSeq = ⟨0, 11⟩ → T.divSweep = ⟨0, 2⟩ → T.divLen = ⟨0, 1⟩ → T.divEnv = ⟨0, 3⟩ →
      (∀ j < k, (toneTicks j T).2.running = true) →
      let U := (toneTicks k T).2
      U.divSeq.remainder.toNat = k % 2048 ∧ U.divSweep.remainder.toNat = k / 2048 % 4 ∧
      U.divLen.remainder.toNat = k / 2048 % 2 ∧ U.divEnv.remainder.toNat = k / 2048 % 8 ∧
      (U.running = true → let p := (toneSubclocks (tonePhase U)).1
        p.sweep = (if 8192 ∣ k + 1 then 1 else 0) ∧ p.len = (if 4096 ∣ k + 1 then 1 else 0) ∧
        p.env = (if 16384 ∣ k + 1 then 1 else 0))) ∧
    (N.divSeq = ⟨0, 11⟩ → N.divLen = ⟨0, 1⟩ → N.divEnv = ⟨0, 3⟩ →
      (∀ j < k, (noiseTicks j N).2.running = true) →
      let U := (noiseTicks k N).2
      U.divSeq.remainder.toNat = k % 2048 ∧ U.divLen.remainder.toNat = k / 2048 % 2 ∧
      U.divEnv.remainder.toNat = k / 2048 % 8 ∧
      (U.running = true → let p := (noiseSubclocks (noiseGate U)).1
        p.len = (if 4096 ∣ k + 1 then 1 else 0) ∧ p.env = (if 16384 ∣ k + 1 then 1 else 0)))

/-! ### The tone channel -/

/-- R67, R68 (codes and the place of the high part D12) and R83 (sign D15): the sample of a running channel's tick. -/
def Obligations.SamplesFollowTheWaveforms : Prop :=
  (∀ T : ToneChannel, T.running = true →
    (toneTick T).1 =
      (if T.dutyCount.toNat < [1, 2, 4, 6][T.duty.toNat]! then 1 else -1) * (T.env.amplitude.toNat : Int)) ∧
  ∀ N : NoiseChannel, N.running = true →
    (noiseTick N).1 = (if N.last.toNat = 0 then 1 else -1) * (N.env.amplitude.toNat : Int)

/-- R69: in a running tick the phase counter counts one tick towards the current `2048 − gbfreq`, and when it fires the
duty step advances modulo 8; a threshold that is not above the count fires, and a `gbfreq` write keeps the count. -/
def Obligations.PhaseStepsTheDutyCount : Prop :=
  (∀ T : ToneChannel, T.running = true →
    let p := counterTick T.phaseCount (2048 - T.gbfreq.toNat) 1
    (toneTick T).2.phaseCount = p.2 ∧
    (toneTick T).2.dutyCount.toNat = (if p.1 then (T.dutyCount.toNat + 1) % 8 else T.dutyCount.toNat) ∧
    (2048 - T.gbfreq.toNat ≤ T.phaseCount.toNat → p.1 = true)) ∧
  ∀ (i : Instr) (s t : State), exec i s = .next t →
    ((∃ v, i = .nr13 v ∨ i = .nr23 v) ∨ ∃ trigger single x fhi,
      i = .nr14 trigger single x fhi ∨ i = .nr24 trigger single x fhi) →
    t.mixer.tone1.phaseCount = s.mixer.tone1.phaseCount ∧ t.mixer.tone2.phaseCount = s.mixer.tone2.phaseCount

/-- R70: the sequencer is stepped by one tick and its pulses step the sweep, length and envelope dividers of the same
channel, whatever the units hold; in a good channel each pulse count is 0 or 1. The noise channel has no sweep divider
(R89). -/
def Obligations.SequencerFeedsTheSubdividers : Prop :=
  (∀ T : ToneChannel, T.running = true →
    let q := dividerStep T.divSeq 1
    (toneTick T).2.divSeq = q.2 ∧ (toneTick T).2.divSweep = (dividerStep T.divSweep q.1).2 ∧
    (toneTick T).2.divLen = (dividerStep T.divLen q.1).2 ∧ (toneTick T).2.divEnv = (dividerStep T.divEnv q.1).2 ∧
    (T.Good → q.1.toNat ≤ 1 ∧ (dividerStep T.divSweep q.1).1.toNat ≤ 1 ∧ (dividerStep T.divLen q.1).1.toNat ≤ 1 ∧
      (dividerStep T.divEnv q.1).1.toNat ≤ 1)) ∧
  ∀ N : NoiseChannel, N.running = true →
    let q := dividerStep N.divSeq 1
    (noiseTick N).2.divSeq = q.2 ∧ (noiseTick N).2.divLen = (dividerStep N.divLen q.1).2 ∧
    (noiseTick N).2.divEnv = (dividerStep N.divEnv q.1).2

/-- R71, by cases (the count towards `sweep_time` is D8, the full-width sum D38): what one call of step 4 does. And R64,
R66, R70: in a running tick step 4 gets the sweep divider's pulses, and the channel's `gbfreq`, sweep unit and `running`
after the tick are those of step 4, `running` then passing the length step. -/
def Obligations.SweepStepByCases : Prop :=
  (∀ (T : ToneChannel) (sw : U32),
    let p := counterTick T.sweep.count T.sweep.time.toNat sw
    let g := T.gbfreq.toNat
    let d := g / 2 ^ T.sweep.shift.toNat
    let U : ToneChannel := { T with sweep := { T.sweep with count := p.2 } }
    (T.sweep.enabled = false → toneSweep T sw = T) ∧
    (T.sweep.enabled = true → p.1 = false → toneSweep T sw = U) ∧
    (T.sweep.enabled = true → p.1 = true → T.sweep.addition = true → g + d ≤ 2047 →
      toneSweep T sw = { U with gbfreq := .ofNat 11 (g + d) }) ∧
    (T.sweep.enabled = true → p.1 = true → T.sweep.addition = true → 2047 < g + d →
      toneSweep T sw = { U with running := false, sweep := { U.sweep with enabled := false } }) ∧
    (T.sweep.enabled = true → p.1 = true → T.sweep.addition = false → d < g →
      toneSweep T sw = { U with gbfreq := .ofNat 11 (g - d) }) ∧
    (T.sweep.enabled = true → p.1 = true → T.sweep.addition = false → ¬ d < g → toneSweep T sw = U)) ∧
  ∀ T : ToneChannel, T.running = true →
    let q := (dividerStep T.divSeq 1).1
    let swept := toneSweep T (dividerStep T.divSweep q).1
    let expired := (counterTick T.len.count (64 - T.len.length.toNat) (dividerStep T.divLen q).1).1
    (toneTick T).2.gbfreq = swept.gbfreq ∧ (toneTick T).2.sweep = swept.sweep ∧
    (toneTick T).2.running = (if expired = true ∧ T.len.repeats = false then false else swept.running)

/-- R72 (D7): the length counter of either kind of channel counts towards `64 − length`; reaching it stops the channel
unless `repeat` is set. In a running tick of either kind the length unit takes that step on its divider's pulses (R64,
R82). -/
def Obligations.LengthExpiryStopsTheChannel : Prop :=
  (∀ (T : ToneChannel) (N : NoiseChannel) (ln : U32),
    let p := counterTick T.len.count (64 - T.len.length.toNat) ln
    let q := counterTick N.len.count (64 - N.len.length.toNat) ln
    toneLength T ln = { T with
      len := { T.len with count := p.2 }
      running := if p.1 = true ∧ T.len.repeats = false then false else T.running } ∧
    noiseLength N ln = { N with
      len := { N.len with count := q.2 }
      running := if q.1 = true ∧ N.len.repeats = false then false else N.running }) ∧
  (∀ T : ToneChannel, T.running = true →
    (toneTick T).2.len = (toneLength T (dividerStep T.divLen (dividerStep T.divSeq 1).1).1).len) ∧
  ∀ N : NoiseChannel, N.running = true →
    let M := noiseLength N (dividerStep N.divLen (dividerStep N.divSeq 1).1).1
    (noiseTick N).2.len = M.len ∧ (noiseTick N).2.running = M.running

/-- R73 (C2, D7): one amplitude step per `env_n` envelope pulses, clamped at 15 and at 0, frozen while `env_n = 0`. In
a running tick of either kind of channel the envelope unit takes that step on its divider's pulses (R64, R82). -/
def Obligations.EnvelopeStepsAndClamps : Prop :=
  (∀ (u : EnvelopeUnit) (ev : U32),
    (u.n = 0 → envelopeStep u ev = u) ∧
    (u.n ≠ 0 → let p := counterTick u.count u.n.toNat ev
      (envelopeStep u ev).count = p.2 ∧
      (envelopeStep u ev).initial = u.initial ∧ (envelopeStep u ev).increase = u.increase ∧
      (envelopeStep u ev).n = u.n ∧
      (envelopeStep u ev).amplitude.toNat =
        if p.1 then (if u.increase then min (u.amplitude.toNat + 1) 15 else u.amplitude.toNat - 1)
        else u.amplitude.toNat)) ∧
  (∀ T : ToneChannel, T.running = true →
    (toneTick T).2.env = envelopeStep T.env (dividerStep T.divEnv (dividerStep T.divSeq 1).1).1) ∧
  ∀ N : NoiseChannel, N.running = true →
    (noiseTick N).2.env = envelopeStep N.env (dividerStep N.divEnv (dividerStep N.divSeq 1).1).1

/-- R66 (D11): a sweep that stops the channel skips no later step of the tick, and the sample was taken before it: the
sweep unit influences only `running`, `gbfreq` and itself. -/
def Obligations.SweepStopSkipsNoLaterStep : Prop :=
  ∀ (T : ToneChannel) (u : SweepUnit), T.running = true →
    let a := toneTick T
    let b := toneTick { T with sweep := u }
    a.1 = b.1 ∧ a.2.len = b.2.len ∧ a.2.env = b.2.env ∧ a.2.phaseCount = b.2.phaseCount ∧
    a.2.dutyCount = b.2.dutyCount ∧ a.2.divSeq = b.2.divSeq ∧ a.2.divSweep = b.2.divSweep ∧
    a.2.divLen = b.2.divLen ∧ a.2.divEnv = b.2.divEnv

/-- R80 and example X9: a channel that nothing stops, from the start of its waveform: the sample of CTICK number `k + 1`
is positive exactly in the first `threshold` of the eight duty steps of `2048 − gbfreq` ticks (D7, D12). -/
def Obligations.ToneWaveformHasTheDutyAndPeriod : Prop :=
  ∀ (s : State) (k : Nat), s.Good → s.mixer.tone1.running = true → s.mixer.tone1.len.repeats = true →
    s.mixer.tone1.env.n = 0 → s.mixer.tone1.sweep.enabled = false →
    s.mixer.tone1.phaseCount = 0 → s.mixer.tone1.dutyCount = 0 →
    ∃ (t : State) (v : Sample),
      execAll (List.replicate (k + 1) (.ctick .tone1)) s = .next t ∧ t.result = .mono v ∧
      v.toInt = (if k / (2048 - s.mixer.tone1.gbfreq.toNat) % 8 < [1, 2, 4, 6][s.mixer.tone1.duty.toNat]!
        then (s.mixer.tone1.env.amplitude.toNat : Int) else -(s.mixer.tone1.env.amplitude.toNat : Int))

/-- R72 with R63, example X5 and R161: a channel triggered from aligned dividers without `repeat` runs for exactly
`(64 − length) × 4096` ticks. The tone channel's sweep is off. -/
def Obligations.LengthExpiresOnTime : Prop :=
  (∀ (T : ToneChannel) (k : Nat), T.running = true → T.sweep.enabled = false → T.len.repeats = false →
    T.len.count = 0 → T.divSeq = ⟨0, 11⟩ → T.divLen = ⟨0, 1⟩ →
    ((toneTicks k T).2.running = true ↔ k < (64 - T.len.length.toNat) * 4096)) ∧
  (∀ (N : NoiseChannel) (k : Nat), N.running = true → N.len.repeats = false →
    N.len.count = 0 → N.divSeq = ⟨0, 11⟩ → N.divLen = ⟨0, 1⟩ →
    ((noiseTicks k N).2.running = true ↔ k < (64 - N.len.length.toNat) * 4096))

/-- R73 with R63, example X6 and R161: on a channel of either kind that keeps running, the amplitude moves once per
`env_n × 16384` ticks and stays clamped. The tone channel's sweep is off. -/
def Obligations.EnvelopeRampsOnTime : Prop :=
  let ramp (u : EnvelopeUnit) (k : Nat) : Nat :=
    if u.increase then min (u.amplitude.toNat + k / (u.n.toNat * 16384)) 15
    else u.amplitude.toNat - k / (u.n.toNat * 16384)
  (∀ (T : ToneChannel) (k : Nat), T.running = true → T.sweep.enabled = false → T.len.repeats = true →
    T.env.n ≠ 0 → T.env.count = 0 → T.divSeq = ⟨0, 11⟩ → T.divEnv = ⟨0, 3⟩ →
    (toneTicks k T).2.env.amplitude.toNat = ramp T.env k) ∧
  ∀ (N : NoiseChannel) (k : Nat), N.running = true → N.len.repeats = true →
    N.env.n ≠ 0 → N.env.count = 0 → N.divSeq = ⟨0, 11⟩ → N.divEnv = ⟨0, 3⟩ →
    (noiseTicks k N).2.env.amplitude.toNat = ramp N.env k

/-! ### The noise channel -/

/-- R87: the feedback is `bit0 ^ bit1` of the register (1 in place of 0), it enters at bit 14 of the shifted value, in
small-step mode it is also ORed into bit 6, `last` becomes the old bit 0, and nothing else changes. -/
def Obligations.LfsrAdvanceByItsBits : Prop :=
  ∀ N : NoiseChannel,
    let l := if N.lfsr.toNat = 0 then 1 else N.lfsr.toNat
    let fb := (l + l / 2) % 2
    lfsrAdvance N = { N with
      lfsr := .ofNat 16 ((l / 2 ||| fb * 2 ^ 14) ||| (if N.smallStep then fb * 2 ^ 6 else 0))
      last := .ofNat 1 l }

/-- R84, R85: in a running tick the shift-clock counter counts only when the prescale counter fires, and the LFSR
advances only when both fire. So with constant settings, from zero counts, the LFSR advances once every
`max(prescale, 1) × 2^shift_clock` running ticks and at no other time. -/
def Obligations.LfsrGateDividesTheTicks : Prop :=
  (∀ N : NoiseChannel, N.running = true →
    let p := counterTick N.prescaleCount N.prescale.toNat 1
    let q := counterTick N.shiftCount (2 ^ N.shiftClock.toNat) 1
    let a := lfsrAdvance N
    let t := (noiseTick N).2
    t.prescaleCount = p.2 ∧ t.shiftCount = (if p.1 then q.2 else N.shiftCount) ∧
    t.lfsr = (if p.1 && q.1 then a.lfsr else N.lfsr) ∧ t.last = (if p.1 && q.1 then a.last else N.last)) ∧
  ∀ (N : NoiseChannel) (k : Nat), N.running = true → N.len.repeats = true → N.prescaleCount = 0 → N.shiftCount = 0 →
    (noiseTicks k N).2.lfsr =
      (lfsrNext N.smallStep)^[k / (max N.prescale.toNat 1 * 2 ^ N.shiftClock.toNat)] N.lfsr

/-- R88: from 1 the 15-bit sequence returns to 1 after 32767 advances and not before. -/
def Obligations.LfsrSequenceHasPeriod32767 : Prop :=
  (lfsrNext false)^[32767] 1 = 1 ∧ ∀ k, 0 < k → k < 32767 → (lfsrNext false)^[k] 1 ≠ 1

/-- R88 and vector V9: in small-step mode the sequence from 1 enters after 28 advances a cycle of length 21, which
begins with 0x4AEE. -/
def Obligations.SmallStepSequenceHasCycle21 : Prop :=
  (lfsrNext true)^[28] 1 = 0x4AEE ∧ (lfsrNext true)^[21] 0x4AEE = 0x4AEE ∧
  (∀ k, 0 < k → k < 21 → (lfsrNext true)^[k] 0x4AEE ≠ 0x4AEE) ∧
  ∀ k, k < 28 → ∀ j, j < 21 → (lfsrNext true)^[k] 1 ≠ (lfsrNext true)^[j] 0x4AEE

/-! ### The whole machine -/

/-- R24 items 1 to 4 and R14 hold after reset. -/
def Obligations.ResetIsGood : Prop :=
  State.reset.Good

/-- R24 items 1 to 4 and R14: every step from a good state gives a good state. -/
def Obligations.GoodIsKeptByEveryStep : Prop :=
  ∀ s t : State, s.Good → step s = .next t → t.Good

/-- R137 and R138: in a good state every operation inside the contract completes, and the only operations refused are
NEXT and CNEXT with a rate outside 1..2^20. -/
def Obligations.RefusedExactlyOutsideTheContract : Prop :=
  ∀ (i : Instr) (s : State), s.Good →
    (i.inContract = true → ∃ t, exec i s = .next t) ∧
    (i.inContract = false → exec i s = .refused .BadSampleRate)

/-- R18: no operation gives channel 2 a sweep, so once unswept it stays unswept, and then only NR23, NR24 and INIT
change its `gbfreq`. -/
def Obligations.Tone2NeverSweeps : Prop :=
  ∀ (i : Instr) (s t : State), s.Tone2Unswept → exec i s = .next t → t.Tone2Unswept ∧
    (t.mixer.tone2.gbfreq = s.mixer.tone2.gbfreq ∨ i = .init ∨ (∃ v, i = .nr23 v) ∨
      ∃ trigger single x fhi, i = .nr24 trigger single x fhi)

/-- R14: "`d.shift` is fixed when the owning channel is reset (rule R128) and never changes afterwards": no operation
but INIT changes a divider's shift. -/
def Obligations.OnlyInitSetsDividerShifts : Prop :=
  ∀ (i : Instr) (s t : State), i ≠ .init → exec i s = .next t →
    let shifts (m : Mixer) : List U32 :=
      [m.tone1.divApu.shift, m.tone1.divSeq.shift, m.tone1.divSweep.shift, m.tone1.divLen.shift, m.tone1.divEnv.shift,
       m.tone2.divApu.shift, m.tone2.divSeq.shift, m.tone2.divSweep.shift, m.tone2.divLen.shift, m.tone2.divEnv.shift,
       m.noise.divSeq.shift, m.noise.divLen.shift, m.noise.divEnv.shift]
    shifts t.mixer = shifts s.mixer

/-- R15, R19, R21: a channel starts running only by a write to its own trigger register with the trigger bit set. -/
def Obligations.OnlyTriggersStartAChannel : Prop :=
  ∀ (i : Instr) (s t : State), exec i s = .next t →
    (s.mixer.tone1.running = false → t.mixer.tone1.running = true → ∃ single x fhi, i = .nr14 true single x fhi) ∧
    (s.mixer.tone2.running = false → t.mixer.tone2.running = true → ∃ single x fhi, i = .nr24 true single x fhi) ∧
    (s.mixer.noise.running = false → t.mixer.noise.running = true → ∃ single x, i = .nr44 true single x)

/-- The "written by" columns of R15, R18, R19 and R20: every setting changes only by its own register, by SET_SCALE or
by INIT. So a pull changes none: it writes only `running`, `sweep_enabled`, `amplitude`, `gbfreq`, the LFSR and its
`last`, the counts and the remainders. -/
def Obligations.SettingsHaveOneWriter : Prop :=
  ∀ (i : Instr) (s t : State), exec i s = .next t → i ≠ .init →
    let m := s.mixer
    let m' := t.mixer
    ((m'.enabled = m.enabled ∨ ∃ on x, i = .nr52 on x) ∧
      (m'.terminal = m.terminal ∨ ∃ r l, i = .nr51 r l) ∧
      (m'.volumeRight = m.volumeRight ∧ m'.volumeLeft = m.volumeLeft ∨ ∃ a r b l, i = .nr50 a r b l) ∧
      (m'.scaleAmplitude = m.scaleAmplitude ∨ ∃ v, i = .setScale .mixer v)) ∧
    ((m'.tone1.sweep.time = m.tone1.sweep.time ∧ m'.tone1.sweep.addition = m.tone1.sweep.addition ∧
        m'.tone1.sweep.shift = m.tone1.sweep.shift ∨ ∃ x time a shift, i = .nr10 x time a shift) ∧
      (m'.tone1.len.length = m.tone1.len.length ∧ m'.tone1.duty = m.tone1.duty ∨ ∃ d l, i = .nr11 d l) ∧
      (m'.tone1.env.initial = m.tone1.env.initial ∧ m'.tone1.env.increase = m.tone1.env.increase ∧
        m'.tone1.env.n = m.tone1.env.n ∨ ∃ v a n, i = .nr12 v a n) ∧
      (m'.tone1.len.repeats = m.tone1.len.repeats ∨ ∃ a b x f, i = .nr14 a b x f) ∧
      (m'.tone1.scaleAmplitude = m.tone1.scaleAmplitude ∨ ∃ v, i = .setScale .tone1 v) ∧
      m'.tone1.divApu = m.tone1.divApu) ∧
    ((m'.tone2.sweep.time = m.tone2.sweep.time ∧ m'.tone2.sweep.addition = m.tone2.sweep.addition ∧
        m'.tone2.sweep.shift = m.tone2.sweep.shift) ∧
      (m'.tone2.len.length = m.tone2.len.length ∧ m'.tone2.duty = m.tone2.duty ∨ ∃ d l, i = .nr21 d l) ∧
      (m'.tone2.env.initial = m.tone2.env.initial ∧ m'.tone2.env.increase = m.tone2.env.increase ∧
        m'.tone2.env.n = m.tone2.env.n ∨ ∃ v a n, i = .nr22 v a n) ∧
      (m'.tone2.len.repeats = m.tone2.len.repeats ∨ ∃ a b x f, i = .nr24 a b x f) ∧
      (m'.tone2.scaleAmplitude = m.tone2.scaleAmplitude ∨ ∃ v, i = .setScale .tone2 v) ∧
      m'.tone2.divApu = m.tone2.divApu) ∧
    (m'.noise.len.length = m.noise.len.length ∨ ∃ x l, i = .nr41 x l) ∧
    (m'.noise.env.initial = m.noise.env.initial ∧ m'.noise.env.increase = m.noise.env.increase ∧
      m'.noise.env.n = m.noise.env.n ∨ ∃ v a n, i = .nr42 v a n) ∧
    (m'.noise.shiftClock = m.noise.shiftClock ∧ m'.noise.smallStep = m.noise.smallStep ∧
      m'.noise.prescale = m.noise.prescale ∨ ∃ c b p, i = .nr43 c b p) ∧
    (m'.noise.len.repeats = m.noise.len.repeats ∨ ∃ a b x, i = .nr44 a b x)

/-- R17: `div_apu` and a tone channel's `scale_amplitude` have no effect on any output: two states that differ only in
them stay so under every operation, with the same result and the same refusals. -/
def Obligations.UnreadFieldsAreInvisible : Prop :=
  ∀ (i : Instr) (s : State) (d1 d2 : ClockDivider) (a1 a2 : I32),
    let blur (s : State) (d1 d2 : ClockDivider) (a1 a2 : I32) : State := { s with mixer := { s.mixer with
      tone1 := { s.mixer.tone1 with divApu := d1, scaleAmplitude := a1 }
      tone2 := { s.mixer.tone2 with divApu := d2, scaleAmplitude := a2 } } }
    (∀ t, exec i s = .next t → ∃ e1 e2 b1 b2, exec i (blur s d1 d2 a1 a2) = .next (blur t e1 e2 b1 b2)) ∧
    ∀ r, exec i s = .refused r → exec i (blur s d1 d2 a1 a2) = .refused r

/-- R56 `TRIG ch, f, s` (D26; addresses D1): its two writes, run from any state whose stream is empty, leave the channel
running with `gbfreq = f`, `repeat = not s` and zero sweep, length and envelope counts (R74, R78, R79), and leave the
other channels alone. -/
def Obligations.TrigSetsTheFrequencyAndRuns : Prop :=
  ∀ (f : BitVec 11) (single : Bool) (s : State), s.stream = [] →
    (∃ t, Sys2Proof.core.run 2 (s.issue (trig .one f single)) = .next t ∧ t.stream = [] ∧
      t.mixer.tone1.running = true ∧ t.mixer.tone1.gbfreq = f ∧ t.mixer.tone1.len.repeats = !single ∧
      t.mixer.tone1.sweep.count = 0 ∧ t.mixer.tone1.len.count = 0 ∧ t.mixer.tone1.env.count = 0 ∧
      t.mixer.tone2 = s.mixer.tone2 ∧ t.mixer.noise = s.mixer.noise) ∧
    ∃ t, Sys2Proof.core.run 2 (s.issue (trig .two f single)) = .next t ∧ t.stream = [] ∧
      t.mixer.tone2.running = true ∧ t.mixer.tone2.gbfreq = f ∧ t.mixer.tone2.len.repeats = !single ∧
      t.mixer.tone2.sweep.count = 0 ∧ t.mixer.tone2.len.count = 0 ∧ t.mixer.tone2.env.count = 0 ∧
      t.mixer.tone1 = s.mixer.tone1 ∧ t.mixer.noise = s.mixer.noise
end

