-- ==== Sys2Proof/Laws/Decode.lean ====
section
/-!
SUPPORT. The small lemmas of the word's packing (R43) and of field extraction (R46).
-/

namespace Sys2Proof.Laws

open Sys2Proof

theorem wrWord_toNat (a : Addr) (v : Byte) : (wrWord a v).toNat = a.toNat * 256 + v.toNat := by
  show ((a ++ v : BitVec (16 + 8))).toNat = _
  rw [BitVec.toNat_append, ← Nat.shiftLeft_add_eq_or_of_lt v.isLt, Nat.shiftLeft_eq]

theorem field_toNat {m : Nat} (w : BitVec m) (lo n : Nat) : (field w lo n).toNat = w.toNat / 2 ^ lo % 2 ^ n := by
  simp [field, Nat.shiftRight_eq_div_pow]

theorem bit_eq {m : Nat} (w : BitVec m) (i : Nat) : bit w i = (w.toNat / 2 ^ i % 2 == 1) := by
  rw [bit, BitVec.getLsbD, Nat.testBit_eq_decide_div_mod_eq]
  rfl

@[simp] theorem field_wrWord_addr (a : Addr) (v : Byte) : field (wrWord a v) 8 16 = a := by
  apply BitVec.eq_of_toNat_eq
  rw [field_toNat, wrWord_toNat]
  omega

@[simp] theorem field_wrWord_value (a : Addr) (v : Byte) : field (wrWord a v) 0 8 = v := by
  apply BitVec.eq_of_toNat_eq
  rw [field_toNat, wrWord_toNat]
  omega

/-- A word is its two fields (R43). -/
theorem wrWord_fields (w : WrWord) : wrWord (field w 8 16) (field w 0 8) = w := by
  apply BitVec.eq_of_toNat_eq
  have := w.isLt
  rw [wrWord_toNat, field_toNat, field_toNat]
  omega

/-- Masking a word masks its address and its value. -/
theorem wrWord_and (a b : Addr) (v u : Byte) : wrWord a v &&& wrWord b u = wrWord (a &&& b) (v &&& u) :=
  BitVec.and_append

theorem hits_addrRow (mnemonic : String) (a : Addr) (v : Byte) :
    OpcodeRow.hits ⟨mnemonic, wrWord a 0#8, 0xFFFF00#24⟩ (wrWord a v) = true := by
  have hmask : (0xFFFF00#24 : WrWord) = wrWord 0xFFFF#16 0#8 := by decide
  have ha : a &&& 0xFFFF#16 = a := BitVec.and_allOnes
  simp [OpcodeRow.hits, hmask, wrWord_and, ha]

theorem hits_waveramRow (index : BitVec 4) (v : Byte) :
    OpcodeRow.hits ⟨"WAVERAM", 0xFF3000#24, 0xFFF000#24⟩ (wrWord (0xFF3#12 ++ index) v) = true := by
  have hmask : (0xFFF000#24 : WrWord) = wrWord 0xFFF0#16 0#8 := by decide
  have ha : ∀ index : BitVec 4, (0xFF3#12 ++ index : Addr) &&& 0xFFF0#16 = 0xFF30#16 := by decide
  have hp : (0xFF3000#24 : WrWord) = wrWord 0xFF30#16 0#8 := by decide
  simp only [OpcodeRow.hits, hmask, wrWord_and, ha, hp]
  simp

/-- No two rows of the table but the last, which matches everything, can hit one word (R52). -/
theorem opcodeRows_disjoint :
    (opcodeRows.dropLast).Pairwise fun r q => (r.pattern ^^^ q.pattern) &&& r.mask &&& q.mask ≠ 0#24 := by
  decide

end Sys2Proof.Laws
end

