-- ==== Sys2Proof/Laws/State.lean ====
section
/-!
SUPPORT. One lemma per field per update of State, so that no proof unfolds a record update.
-/

namespace Sys2Proof.Laws

open Sys2Proof.Machine

@[simp] theorem answer_mixer (s : State) (m : Mixer) (r : Result) : (s.answer m r).mixer = m := rfl
@[simp] theorem answer_stream (s : State) (m : Mixer) (r : Result) : (s.answer m r).stream = s.stream := rfl
@[simp] theorem answer_result (s : State) (m : Mixer) (r : Result) : (s.answer m r).result = r := rfl

@[simp] theorem answer_answer (s : State) (m m' : Mixer) (r r' : Result) :
    (s.answer m r).answer m' r' = s.answer m' r' := rfl

@[simp] theorem written_eq (s : State) (m : Mixer) : s.written m = .next (s.answer m .none) := rfl

@[simp] theorem withFetchWord_mixer (s : State) (nbits w : Nat) : (s.withFetchWord nbits w).mixer = s.mixer := rfl
@[simp] theorem withFetchWord_stream (s : State) (nbits w : Nat) :
    (s.withFetchWord nbits w).stream = inputOfTableWord nbits w :: s.stream := rfl
@[simp] theorem withFetchWord_result (s : State) (nbits w : Nat) : (s.withFetchWord nbits w).result = s.result := rfl

@[simp] theorem reset_mixer : State.reset.mixer = Mixer.reset := rfl
@[simp] theorem reset_stream : State.reset.stream = [] := rfl
@[simp] theorem reset_result : State.reset.result = .none := rfl

end Sys2Proof.Laws
end

