-- ==== Sys2Proof/Laws/Ops.lean ====
section
/-!
SUPPORT. One spec lemma per shared operation: the divider, the threshold counter, the length and envelope units.
-/

namespace Sys2Proof.Laws

open Sys2Proof Sys2Proof.Machine

/-! The Clock Divider. -/

theorem dividerInit_shift (inExp outExp : U32) :
    (dividerInit inExp outExp).shift.toNat = inExp.toNat - outExp.toNat := by
  unfold dividerInit
  split
  · rw [BitVec.toNat_sub_of_le (by simpa [BitVec.le_def] using ‹_›)]
  · simp; omega

@[simp] theorem dividerStep_shift (d : ClockDivider) (n : U32) : (dividerStep d n).2.shift = d.shift := rfl

theorem dividerStep_fired (d : ClockDivider) (n : U32) :
    (dividerStep d n).1.toNat = (d.remainder.toNat + n.toNat) % 2 ^ 32 / 2 ^ d.shift.toNat := by
  simp [dividerStep, BitVec.toNat_ushiftRight, Nat.shiftRight_eq_div_pow]

/-- The mask `2^shift − 1` takes a remainder; with a shift of 32 or more it keeps the whole word. -/
theorem and_mask_toNat (s k : U32) : (s &&& ((1#32 <<< k) - 1#32)).toNat = s.toNat % 2 ^ k.toNat := by
  rw [BitVec.toNat_and]
  by_cases h : k.toNat < 32
  · have hp : 2 ^ k.toNat < 4294967296 := Nat.pow_lt_pow_right (by decide : 1 < 2) h
    have h1 : (1#32 <<< k).toNat = 2 ^ k.toNat := by
      simpa [BitVec.toNat_shiftLeft, Nat.shiftLeft_eq] using hp
    have hone := Nat.one_le_two_pow (n := k.toNat)
    rw [BitVec.toNat_sub_of_le (by rw [BitVec.le_def, h1]; exact hone), h1]
    exact Nat.and_two_pow_sub_one_eq_mod _ _
  · have h0 : (1#32 <<< k) = 0#32 := by
      rw [BitVec.shiftLeft_eq']
      exact BitVec.shiftLeft_eq_zero (by omega)
    have hge : 2 ^ 32 ≤ 2 ^ k.toNat := Nat.pow_le_pow_right (by omega) (by omega)
    rw [h0, Nat.mod_eq_of_lt (by omega)]
    show s.toNat &&& (2 ^ 32 - 1) = _
    rw [Nat.and_two_pow_sub_one_eq_mod, Nat.mod_eq_of_lt s.isLt]

theorem dividerStep_remainder (d : ClockDivider) (n : U32) :
    (dividerStep d n).2.remainder.toNat = (d.remainder.toNat + n.toNat) % 2 ^ 32 % 2 ^ d.shift.toNat := by
  rw [← BitVec.toNat_add]
  exact and_mask_toNat _ _

/-- A step keeps a divider good (R14). -/
theorem dividerStep_good {d : ClockDivider} {k : Nat} (h : d.Good k) (n : U32) : (dividerStep d n).2.Good k := by
  refine ⟨h.1, ?_⟩
  rw [dividerStep_remainder, h.1]
  exact Nat.mod_lt _ (Nat.two_pow_pos k)

/-- A good divider with shift below 32, stepped by at most one tick, gives at most one pulse (R62). -/
theorem dividerStep_fired_le_one {d : ClockDivider} {k : Nat} (h : d.Good k) (hk : k < 32) {n : U32}
    (hn : n.toNat ≤ 1) : (dividerStep d n).1.toNat ≤ 1 := by
  have hp : 2 ^ k ≤ 2 ^ 31 := Nat.pow_le_pow_right (by omega) (by omega)
  have := h.2
  rw [dividerStep_fired, h.1, Nat.mod_eq_of_lt (by omega)]
  exact Nat.lt_succ_iff.mp (Nat.div_lt_of_lt_mul (by omega))

theorem good_inRange {d : ClockDivider} {k : Nat} (h : d.Good k) (hk : k < 32) : d.inRange = true := by
  simp [ClockDivider.inRange, Config.divW, h.1, hk]

/-! The threshold counter. -/

@[simp] theorem counterTick_zero (c : U32) (t : Nat) : counterTick c t 0#32 = (false, c) := by
  simp [counterTick]

theorem counterTick_one (c : U32) (t : Nat) :
    counterTick c t 1#32 = if t ≤ c.toNat + 1 then (true, 0#32) else (false, c + 1#32) := by
  simp [counterTick]

/-- The counter stays at or below a bound that it and `threshold − 1` respect. -/
theorem counterTick_le {c : U32} {t b : Nat} (n : U32) (hc : c.toNat ≤ b) (ht : t ≤ b + 1) :
    (counterTick c t n).2.toNat ≤ b := by
  unfold counterTick
  split
  · exact hc
  · split
    · simp
    · have := Nat.mod_le (c.toNat + n.toNat) (2 ^ 32)
      simp only [BitVec.toNat_add]
      omega

/-! The length and envelope units. -/

theorem lengthTarget_le (l : BitVec 6) : lengthTarget l ≤ 64 := by
  simp [lengthTarget, Config.lenBase]

theorem phasePeriod_le (g : BitVec 11) : phasePeriod g ≤ 2048 := by
  simp [phasePeriod, Config.phaseBase]

theorem shiftClockThreshold_eq (n : BitVec 4) : shiftClockThreshold n = 2 ^ n.toNat := by
  simp [shiftClockThreshold, Nat.shiftLeft_eq]

theorem shiftClockThreshold_le (n : BitVec 4) : shiftClockThreshold n ≤ 2 ^ 15 := by
  rw [shiftClockThreshold_eq]
  exact Nat.pow_le_pow_right (by omega) (by omega)

theorem lengthStep_count_le {u : LengthUnit} (n : U32) (h : u.count.toNat ≤ 63) :
    (lengthStep u n).2.count.toNat ≤ 63 :=
  counterTick_le n h (lengthTarget_le _)

@[simp] theorem lengthStep_length (u : LengthUnit) (n : U32) : (lengthStep u n).2.length = u.length := rfl
@[simp] theorem lengthStep_repeats (u : LengthUnit) (n : U32) : (lengthStep u n).2.repeats = u.repeats := rfl

theorem envelopeStep_count_le {u : EnvelopeUnit} (n : U32) (h : u.count.toNat ≤ 6) :
    (envelopeStep u n).count.toNat ≤ 6 := by
  unfold envelopeStep
  split
  · exact h
  · exact counterTick_le n h (by omega)

@[simp] theorem envelopeStep_n (u : EnvelopeUnit) (n : U32) : (envelopeStep u n).n = u.n := by
  unfold envelopeStep; split <;> rfl
@[simp] theorem envelopeStep_initial (u : EnvelopeUnit) (n : U32) : (envelopeStep u n).initial = u.initial := by
  unfold envelopeStep; split <;> rfl
@[simp] theorem envelopeStep_increase (u : EnvelopeUnit) (n : U32) : (envelopeStep u n).increase = u.increase := by
  unfold envelopeStep; split <;> rfl

theorem amplitudeStep_toNat (increase : Bool) (a : BitVec 4) :
    (amplitudeStep increase a).toNat = if increase then min (a.toNat + 1) 15 else a.toNat - 1 := by
  cases increase
  · simp [amplitudeStep]; omega
  · simp [amplitudeStep, Config.ampMax]

theorem signedAmplitude_bounds (high : Bool) (a : BitVec 4) :
    -15 ≤ signedAmplitude high a ∧ signedAmplitude high a ≤ 15 := by
  have := a.isLt
  cases high <;> simp [signedAmplitude] <;> omega

end Sys2Proof.Laws
end

