-- ==== Sys2Proof/Laws/ToneChannel.lean ====
section
/-!
SUPPORT. What a tone channel's tick can do, said once: the sweep step's frame, the fields after a running tick, and the
induction over ticks.
-/

namespace Sys2Proof.Laws

open Sys2Proof Sys2Proof.Machine

/-- Step 4 writes only `running`, `gbfreq`, `sweep_enabled` and `sweep_count`, and sets no flag. -/
theorem toneSweep_frame (T : ToneChannel) (sw : U32) : ∃ r e c g,
    toneSweep T sw =
      { T with running := r, sweep := { T.sweep with enabled := e, count := c }, gbfreq := g } ∧
    (r = true → T.running = true) ∧ (e = true → T.sweep.enabled = true) ∧
    (T.sweep.enabled = false → g = T.gbfreq ∧ r = T.running) ∧
    (T.sweep.count.toNat ≤ 6 → c.toNat ≤ 6) := by
  unfold toneSweep
  split
  · rename_i he
    have hc : T.sweep.count.toNat ≤ 6 → (counterTick T.sweep.count T.sweep.time.toNat sw).2.toNat ≤ 6 :=
      fun h => counterTick_le sw h (by omega)
    have hne : T.sweep.enabled ≠ false := by simp [he]
    simp only
    split
    · unfold sweepUpdate
      simp only
      split
      · exact ⟨_, _, _, _, rfl, by simp +contextual [flagAfterOverflow], by simp +contextual [flagAfterOverflow],
          fun h => absurd h hne, hc⟩
      · exact ⟨_, _, _, _, rfl, id, id, fun h => absurd h hne, hc⟩
    · exact ⟨_, _, _, _, rfl, id, id, fun h => absurd h hne, hc⟩
  · exact ⟨_, _, _, _, rfl, id, id, fun _ => ⟨rfl, rfl⟩, id⟩

theorem toneSweep_off {T : ToneChannel} (sw : U32) (h : T.sweep.enabled = false) : toneSweep T sw = T := by
  simp [toneSweep, h]

/-- Step 4 reads only what it writes: `running`, the sweep unit and `gbfreq` (R71). -/
theorem toneSweep_congr {T U : ToneChannel} (hr : T.running = U.running) (hs : T.sweep = U.sweep)
    (hg : T.gbfreq = U.gbfreq) (sw : U32) : (toneSweep T sw).running = (toneSweep U sw).running ∧
    (toneSweep T sw).sweep = (toneSweep U sw).sweep ∧ (toneSweep T sw).gbfreq = (toneSweep U sw).gbfreq := by
  simp only [toneSweep, sweepUpdate, hr, hs, hg]
  split
  · split
    · split <;> exact ⟨rfl, rfl, rfl⟩
    · exact ⟨rfl, rfl, rfl⟩
  · exact ⟨hr, hs, hg⟩

section fields
variable (T : ToneChannel) (n : U32)

@[simp] theorem toneSweep_divApu : (toneSweep T n).divApu = T.divApu := by
  obtain ⟨_, _, _, _, h, -⟩ := toneSweep_frame T n; rw [h]
@[simp] theorem toneSweep_divSeq : (toneSweep T n).divSeq = T.divSeq := by
  obtain ⟨_, _, _, _, h, -⟩ := toneSweep_frame T n; rw [h]
@[simp] theorem toneSweep_divSweep : (toneSweep T n).divSweep = T.divSweep := by
  obtain ⟨_, _, _, _, h, -⟩ := toneSweep_frame T n; rw [h]
@[simp] theorem toneSweep_divLen : (toneSweep T n).divLen = T.divLen := by
  obtain ⟨_, _, _, _, h, -⟩ := toneSweep_frame T n; rw [h]
@[simp] theorem toneSweep_divEnv : (toneSweep T n).divEnv = T.divEnv := by
  obtain ⟨_, _, _, _, h, -⟩ := toneSweep_frame T n; rw [h]
@[simp] theorem toneSweep_len : (toneSweep T n).len = T.len := by
  obtain ⟨_, _, _, _, h, -⟩ := toneSweep_frame T n; rw [h]
@[simp] theorem toneSweep_env : (toneSweep T n).env = T.env := by
  obtain ⟨_, _, _, _, h, -⟩ := toneSweep_frame T n; rw [h]
@[simp] theorem toneSweep_phaseCount : (toneSweep T n).phaseCount = T.phaseCount := by
  obtain ⟨_, _, _, _, h, -⟩ := toneSweep_frame T n; rw [h]
@[simp] theorem toneSweep_dutyCount : (toneSweep T n).dutyCount = T.dutyCount := by
  obtain ⟨_, _, _, _, h, -⟩ := toneSweep_frame T n; rw [h]
@[simp] theorem toneSweep_duty : (toneSweep T n).duty = T.duty := by
  obtain ⟨_, _, _, _, h, -⟩ := toneSweep_frame T n; rw [h]
@[simp] theorem toneSweep_scaleAmplitude : (toneSweep T n).scaleAmplitude = T.scaleAmplitude := by
  obtain ⟨_, _, _, _, h, -⟩ := toneSweep_frame T n; rw [h]
@[simp] theorem toneSweep_time : (toneSweep T n).sweep.time = T.sweep.time := by
  obtain ⟨_, _, _, _, h, -⟩ := toneSweep_frame T n; rw [h]
theorem toneSweep_running : (toneSweep T n).running = true → T.running = true := by
  obtain ⟨_, _, _, _, h, hr, -⟩ := toneSweep_frame T n; rw [h]; exact hr
theorem toneSweep_enabled : (toneSweep T n).sweep.enabled = true → T.sweep.enabled = true := by
  obtain ⟨_, _, _, _, h, -, he, -⟩ := toneSweep_frame T n; rw [h]; exact he
theorem toneSweep_count_le (hc : T.sweep.count.toNat ≤ 6) : (toneSweep T n).sweep.count.toNat ≤ 6 := by
  obtain ⟨_, _, _, _, h, -, -, -, hle⟩ := toneSweep_frame T n; rw [h]; exact hle hc

/-! The fields of a running channel after its tick (R66 order). -/

@[simp] theorem toneAdvance_divApu : (toneAdvance T).divApu = T.divApu := by
  simp [toneAdvance, toneEnvelope, toneLength, toneSubclocks, tonePhase]
@[simp] theorem toneAdvance_divSeq : (toneAdvance T).divSeq = (dividerStep T.divSeq 1#32).2 := by
  simp [toneAdvance, toneEnvelope, toneLength, toneSubclocks, tonePhase]
@[simp] theorem toneAdvance_divSweep :
    (toneAdvance T).divSweep = (dividerStep T.divSweep (dividerStep T.divSeq 1#32).1).2 := by
  simp [toneAdvance, toneEnvelope, toneLength, toneSubclocks, tonePhase]
@[simp] theorem toneAdvance_divLen :
    (toneAdvance T).divLen = (dividerStep T.divLen (dividerStep T.divSeq 1#32).1).2 := by
  simp [toneAdvance, toneEnvelope, toneLength, toneSubclocks, tonePhase]
@[simp] theorem toneAdvance_divEnv :
    (toneAdvance T).divEnv = (dividerStep T.divEnv (dividerStep T.divSeq 1#32).1).2 := by
  simp [toneAdvance, toneEnvelope, toneLength, toneSubclocks, tonePhase]
@[simp] theorem toneAdvance_len :
    (toneAdvance T).len = (lengthStep T.len (dividerStep T.divLen (dividerStep T.divSeq 1#32).1).1).2 := by
  simp [toneAdvance, toneEnvelope, toneLength, toneSubclocks, tonePhase]
@[simp] theorem toneAdvance_env :
    (toneAdvance T).env = envelopeStep T.env (dividerStep T.divEnv (dividerStep T.divSeq 1#32).1).1 := by
  simp [toneAdvance, toneEnvelope, toneLength, toneSubclocks, tonePhase]
@[simp] theorem toneAdvance_phaseCount :
    (toneAdvance T).phaseCount = (counterTick T.phaseCount (phasePeriod T.gbfreq) 1#32).2 := by
  simp [toneAdvance, toneEnvelope, toneLength, toneSubclocks, tonePhase]
@[simp] theorem toneAdvance_dutyCount : (toneAdvance T).dutyCount =
    if (counterTick T.phaseCount (phasePeriod T.gbfreq) 1#32).1 then T.dutyCount + 1#3 else T.dutyCount := by
  simp [toneAdvance, toneEnvelope, toneLength, toneSubclocks, tonePhase]
@[simp] theorem toneAdvance_duty : (toneAdvance T).duty = T.duty := by
  simp [toneAdvance, toneEnvelope, toneLength, toneSubclocks, tonePhase]
@[simp] theorem toneAdvance_scaleAmplitude : (toneAdvance T).scaleAmplitude = T.scaleAmplitude := by
  simp [toneAdvance, toneEnvelope, toneLength, toneSubclocks, tonePhase]
@[simp] theorem toneAdvance_time : (toneAdvance T).sweep.time = T.sweep.time := by
  simp [toneAdvance, toneEnvelope, toneLength, toneSubclocks, tonePhase]

theorem toneAdvance_enabled (h : (toneAdvance T).sweep.enabled = true) : T.sweep.enabled = true := by
  simp only [toneAdvance, toneEnvelope, toneLength] at h
  simpa [toneSubclocks, tonePhase] using toneSweep_enabled _ _ h

theorem toneAdvance_count_le (h : T.sweep.count.toNat ≤ 6) : (toneAdvance T).sweep.count.toNat ≤ 6 := by
  simp only [toneAdvance, toneEnvelope, toneLength]
  exact toneSweep_count_le _ _ (by simpa [toneSubclocks, tonePhase] using h)

/-- With the sweep off, a running tick keeps the sweep unit and `gbfreq`, and only length expiry stops the channel. -/
theorem toneAdvance_unswept {T : ToneChannel} (h : T.sweep.enabled = false) :
    (toneAdvance T).sweep = T.sweep ∧ (toneAdvance T).gbfreq = T.gbfreq ∧
    (toneAdvance T).running = runningAfterLength
      (lengthStep T.len (dividerStep T.divLen (dividerStep T.divSeq 1#32).1).1).1 T.len.repeats T.running := by
  have hp : (toneSubclocks (tonePhase T)).2.sweep.enabled = false := h
  refine ⟨?_, ?_, ?_⟩ <;>
    simp only [toneAdvance, toneEnvelope, toneLength, toneSweep_off _ hp] <;> rfl

theorem toneTick_running {T : ToneChannel} (h : T.running = true) : toneTick T = (toneSample T, toneAdvance T) := by
  simp [toneTick, h]

theorem toneTick_stopped {T : ToneChannel} (h : T.running = false) : toneTick T = (0, T) := by
  simp [toneTick, h]

end fields

/-- A tick never starts a channel (R15). -/
theorem toneAdvance_running (T : ToneChannel) (h : (toneAdvance T).running = true) : T.running = true := by
  simp only [toneAdvance, toneEnvelope, toneLength, runningAfterLength, Bool.and_eq_true] at h
  have hrun : (toneSubclocks (tonePhase T)).2.running = true := toneSweep_running _ _ h.1
  exact hrun

/-- What holds of a channel and of a running channel's next state holds after a tick. -/
theorem toneTick_keeps {P : ToneChannel → Prop} {T : ToneChannel} (hT : P T)
    (hA : T.running = true → P (toneAdvance T)) : P (toneTick T).2 := by
  cases h : T.running
  · rwa [toneTick_stopped h]
  · rw [toneTick_running h]; exact hA h

theorem toneTick_bounds (T : ToneChannel) : -15 ≤ (toneTick T).1 ∧ (toneTick T).1 ≤ 15 := by
  unfold toneTick
  split
  · exact signedAmplitude_bounds _ _
  · simp

/-- A tick keeps a good channel good (R24). -/
theorem toneTick_good {T : ToneChannel} (h : T.Good) : (toneTick T).2.Good := by
  refine toneTick_keeps h fun _ => ?_
  obtain ⟨⟨ha, hs, hw, hl, he⟩, hp, hlc, hec, hsc⟩ := h
  refine ⟨⟨?_, ?_, ?_, ?_, ?_⟩, ?_, ?_, ?_, toneAdvance_count_le T hsc⟩
  · rwa [toneAdvance_divApu]
  · rw [toneAdvance_divSeq]; exact dividerStep_good hs _
  · rw [toneAdvance_divSweep]; exact dividerStep_good hw _
  · rw [toneAdvance_divLen]; exact dividerStep_good hl _
  · rw [toneAdvance_divEnv]; exact dividerStep_good he _
  · rw [toneAdvance_phaseCount]; exact counterTick_le _ hp (phasePeriod_le _)
  · rw [toneAdvance_len]; exact lengthStep_count_le _ hlc
  · rw [toneAdvance_env]; exact envelopeStep_count_le _ hec

theorem toneGood_inRange {T : ToneChannel} (h : T.Good) : T.dividersInRange = true := by
  obtain ⟨⟨-, hs, hw, hl, he⟩, -⟩ := h
  simp [ToneChannel.dividersInRange, good_inRange hs, good_inRange hw, good_inRange hl, good_inRange he]

theorem toneGood_tickable {T : ToneChannel} (h : T.Good) : T.tickable = true := by
  simp [ToneChannel.tickable, toneGood_inRange h]

/-! Ticks one after the other. -/

@[simp] theorem toneTicks_zero (T : ToneChannel) : toneTicks 0 T = (0, T) := rfl

theorem toneTicks_succ (k : Nat) (T : ToneChannel) : toneTicks (k + 1) T = toneTick (toneTicks k T).2 :=
  Function.iterate_succ_apply' _ _ _

@[simp] theorem toneTicks_one (T : ToneChannel) : toneTicks 1 T = toneTick T := rfl

/-- The induction over ticks. -/
theorem toneTicks_keeps {P : ToneChannel → Prop} (hstep : ∀ U, P U → P (toneTick U).2) (k : Nat) {T : ToneChannel}
    (h : P T) : P (toneTicks k T).2 := by
  induction k with
  | zero => exact h
  | succ k ih => rw [toneTicks_succ]; exact hstep _ ih

theorem toneTicks_bounds (k : Nat) (T : ToneChannel) : -15 ≤ (toneTicks k T).1 ∧ (toneTicks k T).1 ≤ 15 := by
  cases k with
  | zero => simp
  | succ k => rw [toneTicks_succ]; exact toneTick_bounds _

theorem toneTicks_stopped (k : Nat) {T : ToneChannel} (h : T.running = false) : toneTicks k T = (0, T) := by
  induction k with
  | zero => rfl
  | succ k ih => rw [toneTicks_succ, ih]; exact toneTick_stopped h

end Sys2Proof.Laws
end

