-- ==== Sys2Proof/Laws/NoiseChannel.lean ====
section
/-!
SUPPORT. What the noise channel's tick can do, said once: the clock gate's frame, the fields after a running tick, the
LFSR's range and the induction over ticks.
-/

namespace Sys2Proof.Laws

open Sys2Proof Sys2Proof.Machine

/-! The LFSR. -/

/-- An advance never sets bit 15 of a register below it, and never gives 0 (R24 item 4). -/
theorem lfsrNext_range (smallStep : Bool) (l : BitVec 16) (h : l.toNat ≤ 0x7FFF) :
    1 ≤ (lfsrNext smallStep l).toNat ∧ (lfsrNext smallStep l).toNat ≤ 0x7FFF := by
  have hseed : (lfsrSeed l).toNat ≤ 0x7FFF ∧ (lfsrSeed l).toNat ≠ 0 := by
    unfold lfsrSeed
    split
    · decide
    · rename_i hne
      exact ⟨h, fun h0 => hne (BitVec.eq_of_toNat_eq (by simpa using h0))⟩
  generalize hx : lfsrSeed l = x at hseed
  have hfb : (lfsrFeedback x).toNat ≤ 1 := by
    have h1 : (lfsrFeedback x) &&& 1#16 = lfsrFeedback x := by
      unfold lfsrFeedback
      ext i hi
      simp
      by_cases h0 : i = 0 <;> simp [h0]
    have := congrArg BitVec.toNat h1
    rw [BitVec.toNat_and] at this
    have hle : (lfsrFeedback x).toNat &&& (1#16).toNat ≤ (1#16).toNat := Nat.and_le_right
    rw [this] at hle
    simpa using hle
  have hshift : (x >>> 1).toNat < 2 ^ 14 := by
    simp [BitVec.toNat_ushiftRight, Nat.shiftRight_eq_div_pow]; omega
  have h14 : (lfsrFeedback x <<< 14).toNat < 2 ^ 15 := by
    simp [BitVec.toNat_shiftLeft, Nat.shiftLeft_eq]; omega
  have h6 : (if smallStep then lfsrFeedback x <<< 6 else 0#16).toNat < 2 ^ 15 := by
    split
    · simp [BitVec.toNat_shiftLeft, Nat.shiftLeft_eq]; omega
    · simp
  have hval : lfsrNext smallStep l =
      (x >>> 1) ||| (lfsrFeedback x <<< 14) ||| (if smallStep then lfsrFeedback x <<< 6 else 0#16) := by
    simp only [lfsrNext, hx]
  rw [hval, BitVec.toNat_or, BitVec.toNat_or]
  constructor
  · by_contra h0
    have hz := Nat.or_eq_zero_iff.mp (Nat.or_eq_zero_iff.mp (Nat.lt_one_iff.mp (Nat.not_le.mp h0))).1
    have hz1 := hz.1
    have hx1 : x = 1#16 := by
      apply BitVec.eq_of_toNat_eq
      simp [BitVec.toNat_ushiftRight, Nat.shiftRight_eq_div_pow] at hz1 ⊢
      omega
    exact absurd (hx1 ▸ hz.2) (by decide)
  · have := Nat.or_lt_two_pow (Nat.or_lt_two_pow (hshift.trans (by decide)) h14) h6
    omega

/-! The clock gate. -/

/-- The gate writes only the two counters and the LFSR (R84, R85). -/
theorem noiseGate_frame (N : NoiseChannel) : ∃ p q l b,
    noiseGate N = { N with prescaleCount := p, shiftCount := q, lfsr := l, last := b } ∧
    (N.prescaleCount.toNat ≤ 6 → p.toNat ≤ 6) ∧ (N.shiftCount.toNat ≤ 2 ^ 15 - 1 → q.toNat ≤ 2 ^ 15 - 1) ∧
    (l = N.lfsr ∨ l = lfsrNext N.smallStep N.lfsr) := by
  have hp : N.prescaleCount.toNat ≤ 6 → (counterTick N.prescaleCount N.prescale.toNat 1#32).2.toNat ≤ 6 :=
    fun h => counterTick_le _ h (by omega)
  have hq : N.shiftCount.toNat ≤ 2 ^ 15 - 1 →
      (counterTick N.shiftCount (shiftClockThreshold N.shiftClock) 1#32).2.toNat ≤ 2 ^ 15 - 1 :=
    fun h => counterTick_le _ h (shiftClockThreshold_le _)
  unfold noiseGate
  simp only
  split
  · split
    · exact ⟨_, _, _, _, rfl, hp, hq, .inr rfl⟩
    · exact ⟨_, _, _, _, rfl, hp, hq, .inl rfl⟩
  · exact ⟨_, _, _, _, rfl, hp, id, .inl rfl⟩

section fields
variable (N : NoiseChannel)

@[simp] theorem noiseGate_running : (noiseGate N).running = N.running := by
  obtain ⟨_, _, _, _, h, -⟩ := noiseGate_frame N; rw [h]
@[simp] theorem noiseGate_divSeq : (noiseGate N).divSeq = N.divSeq := by
  obtain ⟨_, _, _, _, h, -⟩ := noiseGate_frame N; rw [h]
@[simp] theorem noiseGate_divLen : (noiseGate N).divLen = N.divLen := by
  obtain ⟨_, _, _, _, h, -⟩ := noiseGate_frame N; rw [h]
@[simp] theorem noiseGate_divEnv : (noiseGate N).divEnv = N.divEnv := by
  obtain ⟨_, _, _, _, h, -⟩ := noiseGate_frame N; rw [h]
@[simp] theorem noiseGate_len : (noiseGate N).len = N.len := by
  obtain ⟨_, _, _, _, h, -⟩ := noiseGate_frame N; rw [h]
@[simp] theorem noiseGate_env : (noiseGate N).env = N.env := by
  obtain ⟨_, _, _, _, h, -⟩ := noiseGate_frame N; rw [h]
@[simp] theorem noiseGate_shiftClock : (noiseGate N).shiftClock = N.shiftClock := by
  obtain ⟨_, _, _, _, h, -⟩ := noiseGate_frame N; rw [h]
@[simp] theorem noiseGate_smallStep : (noiseGate N).smallStep = N.smallStep := by
  obtain ⟨_, _, _, _, h, -⟩ := noiseGate_frame N; rw [h]
@[simp] theorem noiseGate_prescale : (noiseGate N).prescale = N.prescale := by
  obtain ⟨_, _, _, _, h, -⟩ := noiseGate_frame N; rw [h]

/-! The fields of a running channel after its tick. -/

@[simp] theorem noiseAdvance_divSeq : (noiseAdvance N).divSeq = (dividerStep N.divSeq 1#32).2 := by
  simp [noiseAdvance, noiseEnvelope, noiseLength, noiseSubclocks]
@[simp] theorem noiseAdvance_divLen :
    (noiseAdvance N).divLen = (dividerStep N.divLen (dividerStep N.divSeq 1#32).1).2 := by
  simp [noiseAdvance, noiseEnvelope, noiseLength, noiseSubclocks]
@[simp] theorem noiseAdvance_divEnv :
    (noiseAdvance N).divEnv = (dividerStep N.divEnv (dividerStep N.divSeq 1#32).1).2 := by
  simp [noiseAdvance, noiseEnvelope, noiseLength, noiseSubclocks]
@[simp] theorem noiseAdvance_len :
    (noiseAdvance N).len = (lengthStep N.len (dividerStep N.divLen (dividerStep N.divSeq 1#32).1).1).2 := by
  simp [noiseAdvance, noiseEnvelope, noiseLength, noiseSubclocks]
@[simp] theorem noiseAdvance_env :
    (noiseAdvance N).env = envelopeStep N.env (dividerStep N.divEnv (dividerStep N.divSeq 1#32).1).1 := by
  simp [noiseAdvance, noiseEnvelope, noiseLength, noiseSubclocks]
@[simp] theorem noiseAdvance_running : (noiseAdvance N).running = runningAfterLength
    (lengthStep N.len (dividerStep N.divLen (dividerStep N.divSeq 1#32).1).1).1 N.len.repeats N.running := by
  simp [noiseAdvance, noiseEnvelope, noiseLength, noiseSubclocks]
@[simp] theorem noiseAdvance_lfsr : (noiseAdvance N).lfsr = (noiseGate N).lfsr := rfl
@[simp] theorem noiseAdvance_last : (noiseAdvance N).last = (noiseGate N).last := rfl
@[simp] theorem noiseAdvance_prescaleCount : (noiseAdvance N).prescaleCount = (noiseGate N).prescaleCount := rfl
@[simp] theorem noiseAdvance_shiftCount : (noiseAdvance N).shiftCount = (noiseGate N).shiftCount := rfl
@[simp] theorem noiseAdvance_prescale : (noiseAdvance N).prescale = N.prescale := by
  simp [noiseAdvance, noiseEnvelope, noiseLength, noiseSubclocks]
@[simp] theorem noiseAdvance_shiftClock : (noiseAdvance N).shiftClock = N.shiftClock := by
  simp [noiseAdvance, noiseEnvelope, noiseLength, noiseSubclocks]
@[simp] theorem noiseAdvance_smallStep : (noiseAdvance N).smallStep = N.smallStep := by
  simp [noiseAdvance, noiseEnvelope, noiseLength, noiseSubclocks]

theorem noiseTick_running {N : NoiseChannel} (h : N.running = true) :
    noiseTick N = (noiseSample N, noiseAdvance N) := by
  simp [noiseTick, h]

theorem noiseTick_stopped {N : NoiseChannel} (h : N.running = false) : noiseTick N = (0, N) := by
  simp [noiseTick, h]

end fields

/-- What holds of a channel and of a running channel's next state holds after a tick. -/
theorem noiseTick_keeps {P : NoiseChannel → Prop} {N : NoiseChannel} (hN : P N)
    (hA : N.running = true → P (noiseAdvance N)) : P (noiseTick N).2 := by
  cases h : N.running
  · rwa [noiseTick_stopped h]
  · rw [noiseTick_running h]; exact hA h

theorem noiseTick_bounds (N : NoiseChannel) : -15 ≤ (noiseTick N).1 ∧ (noiseTick N).1 ≤ 15 := by
  unfold noiseTick
  split
  · exact signedAmplitude_bounds _ _
  · simp

/-- A tick keeps a good channel good (R24). -/
theorem noiseTick_good {N : NoiseChannel} (h : N.Good) : (noiseTick N).2.Good := by
  refine noiseTick_keeps h fun hrun => ?_
  obtain ⟨⟨hs, hl, he⟩, ⟨hlc, hec, hpc, hsc⟩, hnz, hmax⟩ := h
  obtain ⟨p, q, l, b, hg, hp, hq, hlf⟩ := noiseGate_frame N
  have hl' : 1 ≤ (noiseGate N).lfsr.toNat ∧ (noiseGate N).lfsr.toNat ≤ 0x7FFF := by
    rw [hg]
    rcases hlf with rfl | rfl
    · exact ⟨hnz hrun, hmax⟩
    · exact lfsrNext_range _ _ hmax
  refine ⟨⟨?_, ?_, ?_⟩, ⟨?_, ?_, ?_, ?_⟩, fun _ => ?_, ?_⟩
  · rw [noiseAdvance_divSeq]; exact dividerStep_good hs _
  · rw [noiseAdvance_divLen]; exact dividerStep_good hl _
  · rw [noiseAdvance_divEnv]; exact dividerStep_good he _
  · rw [noiseAdvance_len]; exact lengthStep_count_le _ hlc
  · rw [noiseAdvance_env]; exact envelopeStep_count_le _ hec
  · rw [noiseAdvance_prescaleCount, hg]; exact hp hpc
  · rw [noiseAdvance_shiftCount, hg]; exact hq hsc
  · rw [noiseAdvance_lfsr]; exact hl'.1
  · rw [noiseAdvance_lfsr]; exact hl'.2

theorem noiseGood_inRange {N : NoiseChannel} (h : N.Good) : N.dividersInRange = true := by
  obtain ⟨⟨hs, hl, he⟩, -⟩ := h
  simp [NoiseChannel.dividersInRange, good_inRange hs, good_inRange hl, good_inRange he]

theorem noiseGood_tickable {N : NoiseChannel} (h : N.Good) : N.tickable = true := by
  simp [NoiseChannel.tickable, noiseGood_inRange h]

/-! Ticks one after the other. -/

@[simp] theorem noiseTicks_zero (N : NoiseChannel) : noiseTicks 0 N = (0, N) := rfl

theorem noiseTicks_succ (k : Nat) (N : NoiseChannel) : noiseTicks (k + 1) N = noiseTick (noiseTicks k N).2 :=
  Function.iterate_succ_apply' _ _ _

@[simp] theorem noiseTicks_one (N : NoiseChannel) : noiseTicks 1 N = noiseTick N := rfl

/-- The induction over ticks. -/
theorem noiseTicks_keeps {P : NoiseChannel → Prop} (hstep : ∀ U, P U → P (noiseTick U).2) (k : Nat)
    {N : NoiseChannel} (h : P N) : P (noiseTicks k N).2 := by
  induction k with
  | zero => exact h
  | succ k ih => rw [noiseTicks_succ]; exact hstep _ ih

theorem noiseTicks_bounds (k : Nat) (N : NoiseChannel) : -15 ≤ (noiseTicks k N).1 ∧ (noiseTicks k N).1 ≤ 15 := by
  cases k with
  | zero => simp
  | succ k => rw [noiseTicks_succ]; exact noiseTick_bounds _

theorem noiseTicks_stopped (k : Nat) {N : NoiseChannel} (h : N.running = false) : noiseTicks k N = (0, N) := by
  induction k with
  | zero => rfl
  | succ k ih => rw [noiseTicks_succ, ih]; exact noiseTick_stopped h

end Sys2Proof.Laws
end

