-- ==== Sys2Proof/Laws/Mixer.lean ====
section
/-!
SUPPORT. What a Mixer tick can do, said once, and its bounds (R24 item 5, R96, R99).
-/

namespace Sys2Proof.Laws

open Sys2Proof Sys2Proof.Machine

theorem mixerTick_on {m : Mixer} (h : m.enabled = true) :
    mixerTick m = (mixDown m (tickChannels m).1, (tickChannels m).2) := by
  simp [mixerTick, h]

theorem mixerTick_off {m : Mixer} (h : m.enabled = false) : mixerTick m = (⟨0, 0⟩, m) := by
  simp [mixerTick, h]

/-- A Mixer tick writes only the three channels, each by its own tick. -/
theorem mixerTick_frame (m : Mixer) : (mixerTick m).2 = m ∨
    (mixerTick m).2 = { m with
      tone1 := (toneTick m.tone1).2, tone2 := (toneTick m.tone2).2, noise := (noiseTick m.noise).2 } := by
  by_cases h : m.enabled = true
  · exact .inr (by rw [mixerTick_on h]; rfl)
  · exact .inl (by rw [mixerTick_off (by simpa using h)])

@[simp] theorem mixerTick_enabled (m : Mixer) : (mixerTick m).2.enabled = m.enabled := by
  rcases mixerTick_frame m with h | h <;> rw [h]
@[simp] theorem mixerTick_terminal (m : Mixer) : (mixerTick m).2.terminal = m.terminal := by
  rcases mixerTick_frame m with h | h <;> rw [h]
@[simp] theorem mixerTick_volumeRight (m : Mixer) : (mixerTick m).2.volumeRight = m.volumeRight := by
  rcases mixerTick_frame m with h | h <;> rw [h]
@[simp] theorem mixerTick_volumeLeft (m : Mixer) : (mixerTick m).2.volumeLeft = m.volumeLeft := by
  rcases mixerTick_frame m with h | h <;> rw [h]
@[simp] theorem mixerTick_scaleAmplitude (m : Mixer) : (mixerTick m).2.scaleAmplitude = m.scaleAmplitude := by
  rcases mixerTick_frame m with h | h <;> rw [h]

/-! Bounds. -/

theorem gate_bounds (e : Bool) {x b : Int} (h : -b ≤ x ∧ x ≤ b) (hb : 0 ≤ b) : -b ≤ gate e x ∧ gate e x ≤ b := by
  unfold gate
  split
  · exact h
  · omega

/-- A lane sum of three samples in −15..15 is in −45..45. -/
theorem routeLane_bounds (t : Terminals) (i : Nat) {x : SlotSamples} (h1 : -15 ≤ x.tone1 ∧ x.tone1 ≤ 15)
    (h2 : -15 ≤ x.tone2 ∧ x.tone2 ≤ 15) (hw : x.wave = 0) (hn : -15 ≤ x.noise ∧ x.noise ≤ 15) :
    -45 ≤ routeLane t i x ∧ routeLane t i x ≤ 45 := by
  have a := gate_bounds (bit t.tone1 i) h1 (by omega)
  have b := gate_bounds (bit t.tone2 i) h2 (by omega)
  have c := gate_bounds (bit t.noise i) hn (by omega)
  have d := gate_bounds (bit t.wave i) (x := x.wave) (b := 0) (by omega) (by omega)
  unfold routeLane
  omega

theorem volumeFactor_bounds (v : BitVec 3) : 1 ≤ volumeFactor v ∧ volumeFactor v ≤ 8 := by
  have := v.isLt
  unfold volumeFactor
  omega

/-- A lane is in −360..360 (R96). -/
theorem lane_bounds {a v : Int} (ha : -45 ≤ a ∧ a ≤ 45) (hv : 1 ≤ v ∧ v ≤ 8) : -360 ≤ a * v ∧ a * v ≤ 360 := by
  constructor <;> nlinarith [ha.1, ha.2, hv.1, hv.2]

/-- Both members of a Mixer tick's pair are in −360..360, in every state. -/
theorem mixerTick_bounds (m : Mixer) : (-360 ≤ (mixerTick m).1.left ∧ (mixerTick m).1.left ≤ 360) ∧
    -360 ≤ (mixerTick m).1.right ∧ (mixerTick m).1.right ≤ 360 := by
  cases h : m.enabled
  · rw [mixerTick_off h]; simp
  · rw [mixerTick_on h]
    have hr (i : Nat) := routeLane_bounds m.terminal i (x := (tickChannels m).1) (toneTick_bounds m.tone1)
      (toneTick_bounds m.tone2) rfl (noiseTick_bounds m.noise)
    exact ⟨lane_bounds (hr 1) (volumeFactor_bounds _), lane_bounds (hr 0) (volumeFactor_bounds _)⟩

/-- An integer that fits `i16` is what its sample reads as. -/
theorem wrap16_toInt {v : Int} (h1 : -32768 ≤ v) (h2 : v ≤ 32767) : (wrap16 v).toInt = v := by
  unfold wrap16
  rw [BitVec.toInt_ofInt, Int.bmod_eq_of_le] <;> omega

/-! Ticks one after the other. -/

@[simp] theorem mixerTicks_zero (m : Mixer) : mixerTicks 0 m = (⟨0, 0⟩, m) := rfl

theorem mixerTicks_succ (k : Nat) (m : Mixer) : mixerTicks (k + 1) m = mixerTick (mixerTicks k m).2 :=
  Function.iterate_succ_apply' _ _ _

/-- The induction over ticks. -/
theorem mixerTicks_keeps {P : Mixer → Prop} (hstep : ∀ u, P u → P (mixerTick u).2) (k : Nat) {m : Mixer} (h : P m) :
    P (mixerTicks k m).2 := by
  induction k with
  | zero => exact h
  | succ k ih => rw [mixerTicks_succ]; exact hstep _ ih

theorem mixerTicks_off (k : Nat) {m : Mixer} (h : m.enabled = false) : mixerTicks k m = (⟨0, 0⟩, m) := by
  induction k with
  | zero => rfl
  | succ k ih => rw [mixerTicks_succ, ih]; exact mixerTick_off h

theorem mixerTicks_bounds (k : Nat) (m : Mixer) : (-360 ≤ (mixerTicks k m).1.left ∧ (mixerTicks k m).1.left ≤ 360) ∧
    -360 ≤ (mixerTicks k m).1.right ∧ (mixerTicks k m).1.right ≤ 360 := by
  cases k with
  | zero => simp
  | succ k => rw [mixerTicks_succ]; exact mixerTick_bounds _

/-- The three channels are good (R24). -/
abbrev MixerGood (m : Mixer) : Prop := m.tone1.Good ∧ m.tone2.Good ∧ m.noise.Good

theorem mixerTick_good {m : Mixer} (h : MixerGood m) : MixerGood (mixerTick m).2 := by
  rcases mixerTick_frame m with e | e <;> rw [e]
  · exact h
  · exact ⟨toneTick_good h.1, toneTick_good h.2.1, noiseTick_good h.2.2⟩

theorem mixerGood_tickable {m : Mixer} (h : MixerGood m) : m.tickable = true := by
  simp [Mixer.tickable, toneGood_tickable h.1, toneGood_tickable h.2.1, noiseGood_tickable h.2.2]

end Sys2Proof.Laws
end

