-- ==== Sys2Proof/Laws/Exec.lean ====
section
/-!
SUPPORT. The inversion of exec: what a next state of each host operation is, and which operations can stop.
-/

namespace Sys2Proof.Laws

open Sys2Proof Sys2Proof.Machine

theorem sampleRateAdmitted_iff (r : U32) : sampleRateAdmitted r = true ↔ 1 ≤ r.toNat ∧ r.toNat ≤ 2 ^ 20 := by
  unfold sampleRateAdmitted
  rw [Bool.and_eq_true, decide_eq_true_iff, decide_eq_true_iff]
  rfl

theorem ticksPerSample_eq (r : U32) : ticksPerSample r = 2 ^ 20 / r.toNat := rfl

theorem ticksPerSample_pos {r : U32} (h : 1 ≤ r.toNat) (h' : r.toNat ≤ 2 ^ 20) : 0 < ticksPerSample r :=
  Nat.div_pos h' h

theorem exec_tick (s : State) : exec .tick s =
    if s.mixer.tickable then .next (s.answer (mixerTick s.mixer).2 (stereoResult (mixerTick s.mixer).1))
    else .refused .DividerShiftRange := rfl

theorem exec_next (r : U32) (s : State) : exec (.next r) s =
    if !sampleRateAdmitted r then .refused .BadSampleRate
    else if s.mixer.tickable then
      .next (s.answer (mixerTicks (ticksPerSample r) s.mixer).2
        (.mono (monoOut (mixerTicks (ticksPerSample r) s.mixer).1 s.mixer.scaleAmplitude)))
    else .refused .DividerShiftRange := rfl

theorem exec_ctick (c : Channel) (s : State) : exec (.ctick c) s =
    if channelTickable s.mixer c then
      .next (s.answer (channelTicks s.mixer c 1).2 (.mono (wrap16 (channelTicks s.mixer c 1).1)))
    else .refused .DividerShiftRange := rfl

theorem exec_cnext (c : Channel) (r : U32) (s : State) : exec (.cnext c r) s =
    if !sampleRateAdmitted r then .refused .BadSampleRate
    else if channelTickable s.mixer c then
      .next (s.answer (channelTicks s.mixer c (ticksPerSample r)).2
        (.mono (wrap16 (channelTicks s.mixer c (ticksPerSample r)).1)))
    else .refused .DividerShiftRange := rfl

theorem exec_tick_next {s t : State} (h : exec .tick s = .next t) : s.mixer.tickable = true ∧
    t = s.answer (mixerTick s.mixer).2 (stereoResult (mixerTick s.mixer).1) := by
  rw [exec_tick] at h
  split at h
  · exact ⟨‹_›, (Host.Outcome.next.inj h).symm⟩
  · cases h

theorem exec_next_next {r : U32} {s t : State} (h : exec (.next r) s = .next t) :
    sampleRateAdmitted r = true ∧ s.mixer.tickable = true ∧
    t = s.answer (mixerTicks (ticksPerSample r) s.mixer).2
      (.mono (monoOut (mixerTicks (ticksPerSample r) s.mixer).1 s.mixer.scaleAmplitude)) := by
  rw [exec_next] at h
  split at h
  · cases h
  · rename_i hr
    split at h
    · exact ⟨by simpa using hr, ‹_›, (Host.Outcome.next.inj h).symm⟩
    · cases h

theorem exec_ctick_next {c : Channel} {s t : State} (h : exec (.ctick c) s = .next t) :
    channelTickable s.mixer c = true ∧
    t = s.answer (channelTicks s.mixer c 1).2 (.mono (wrap16 (channelTicks s.mixer c 1).1)) := by
  rw [exec_ctick] at h
  split at h
  · exact ⟨‹_›, (Host.Outcome.next.inj h).symm⟩
  · cases h

theorem exec_cnext_next {c : Channel} {r : U32} {s t : State} (h : exec (.cnext c r) s = .next t) :
    sampleRateAdmitted r = true ∧ channelTickable s.mixer c = true ∧
    t = s.answer (channelTicks s.mixer c (ticksPerSample r)).2
      (.mono (wrap16 (channelTicks s.mixer c (ticksPerSample r)).1)) := by
  rw [exec_cnext] at h
  split at h
  · cases h
  · rename_i hr
    split at h
    · exact ⟨by simpa using hr, ‹_›, (Host.Outcome.next.inj h).symm⟩
    · cases h

/-- Every operation but the four pulls completes in every state, with the same next block whatever the stream and the
last result were. -/
def writes : Instr → Option (Mixer → Mixer)
  | .nr10 _ time addition shift => some fun m => { m with tone1 := toneSetSweep m.tone1 time addition shift }
  | .nr11 duty length => some fun m => { m with tone1 := toneSetLengthDuty m.tone1 length duty }
  | .nr12 initial increase n => some fun m => { m with tone1 := toneSetEnvelope m.tone1 initial increase n }
  | .nr13 flo => some fun m => { m with tone1 := toneSetFreqLow m.tone1 flo }
  | .nr14 trigger single _ fhi => some fun m => { m with tone1 := toneSetFreqHigh m.tone1 trigger single fhi }
  | .nr21 duty length => some fun m => { m with tone2 := toneSetLengthDuty m.tone2 length duty }
  | .nr22 initial increase n => some fun m => { m with tone2 := toneSetEnvelope m.tone2 initial increase n }
  | .nr23 flo => some fun m => { m with tone2 := toneSetFreqLow m.tone2 flo }
  | .nr24 trigger single _ fhi => some fun m => { m with tone2 := toneSetFreqHigh m.tone2 trigger single fhi }
  | .nr30 _ => some id
  | .nr31 _ => some id
  | .nr32 _ => some id
  | .nr33 _ => some id
  | .nr34 _ => some id
  | .waveram _ _ => some id
  | .nr41 _ length => some fun m => { m with noise := noiseSetLength m.noise length }
  | .nr42 initial increase n => some fun m => { m with noise := noiseSetEnvelope m.noise initial increase n }
  | .nr43 shiftClock smallStep prescale =>
    some fun m => { m with noise := noiseSetPoly m.noise shiftClock smallStep prescale }
  | .nr44 trigger single _ => some fun m => { m with noise := noiseTrigger m.noise trigger single }
  | .nr50 _ right _ left => some fun m => mixerSetVolume m right left
  | .nr51 rightEn leftEn => some fun m => mixerSetRouting m rightEn leftEn
  | .nr52 on _ => some fun m => mixerSetPower m on
  | .unmapped _ _ => some id
  | .tick => none
  | .next _ => none
  | .init => some fun _ => mixerInit
  | .setScale target v => some fun m => setScaleAmplitude m target v
  | .ctick _ => none
  | .cnext _ _ => none

/-- An operation with a `writes` entry completes, answers nothing, and leaves the block so written. -/
theorem exec_writes {i : Instr} {f : Mixer → Mixer} (h : writes i = some f) (s : State) :
    exec i s = .next (s.answer (f s.mixer) .none) := by
  cases i <;> first | (cases h; rfl) | cases h

/-- The inversion of exec: a next state is that of a write, of a Mixer pull or of a channel pull. -/
theorem exec_cases {i : Instr} {s t : State} (h : exec i s = .next t) :
    (∃ f, writes i = some f ∧ t = s.answer (f s.mixer) .none) ∨
    ((i = .tick ∨ ∃ r, i = .next r) ∧ s.mixer.tickable = true ∧
      ∃ k res, t = s.answer (mixerTicks k s.mixer).2 res) ∨
    (∃ c k res, (i = .ctick c ∨ ∃ r, i = .cnext c r) ∧ channelTickable s.mixer c = true ∧
      t = s.answer (channelTicks s.mixer c k).2 res) := by
  cases hw : writes i with
  | some f =>
    rw [exec_writes hw] at h
    exact .inl ⟨f, rfl, (Host.Outcome.next.inj h).symm⟩
  | none =>
    right
    cases i with
    | tick =>
      obtain ⟨h1, h2⟩ := exec_tick_next h
      exact .inl ⟨.inl rfl, h1, 1, _, h2⟩
    | next r =>
      obtain ⟨-, h1, h2⟩ := exec_next_next h
      exact .inl ⟨.inr ⟨r, rfl⟩, h1, _, _, h2⟩
    | ctick c =>
      obtain ⟨h1, h2⟩ := exec_ctick_next h
      exact .inr ⟨c, 1, _, .inl rfl, h1, h2⟩
    | cnext c r =>
      obtain ⟨-, h1, h2⟩ := exec_cnext_next h
      exact .inr ⟨c, _, _, .inr ⟨r, rfl⟩, h1, h2⟩
    | _ => cases hw

/-- No operation touches the host's stream. -/
theorem exec_stream {i : Instr} {s t : State} (h : exec i s = .next t) : t.stream = s.stream := by
  rcases exec_cases h with ⟨f, -, rfl⟩ | ⟨-, -, k, res, rfl⟩ | ⟨c, k, res, -, -, rfl⟩ <;> rfl

/-- A channel pull keeps whatever of the block its channel's tick keeps. -/
theorem channelTicks_keeps {P : Mixer → Prop} {m : Mixer} (c : Channel) (k : Nat) (h : P m)
    (h1 : ∀ u, P u → P { u with tone1 := (toneTick u.tone1).2 })
    (h2 : ∀ u, P u → P { u with tone2 := (toneTick u.tone2).2 })
    (hn : ∀ u, P u → P { u with noise := (noiseTick u.noise).2 }) : P (channelTicks m c k).2 := by
  cases c
  · exact toneTicks_keeps (P := fun T => P { m with tone1 := T }) (fun U hU => h1 { m with tone1 := U } hU) k h
  · exact toneTicks_keeps (P := fun T => P { m with tone2 := T }) (fun U hU => h2 { m with tone2 := U } hU) k h
  · exact noiseTicks_keeps (P := fun N => P { m with noise := N }) (fun U hU => hn { m with noise := U } hU) k h

/-- What every write and every single channel tick keeps, every completed operation keeps. -/
theorem exec_keeps {P : Mixer → Prop} {i : Instr} {s t : State} (h : exec i s = .next t) (hs : P s.mixer)
    (hw : ∀ f, writes i = some f → P (f s.mixer))
    (h1 : ∀ u, P u → P { u with tone1 := (toneTick u.tone1).2 })
    (h2 : ∀ u, P u → P { u with tone2 := (toneTick u.tone2).2 })
    (hn : ∀ u, P u → P { u with noise := (noiseTick u.noise).2 }) : P t.mixer := by
  rcases exec_cases h with ⟨f, hf, rfl⟩ | ⟨-, -, k, res, rfl⟩ | ⟨c, k, res, -, -, rfl⟩
  · exact hw f hf
  · refine mixerTicks_keeps (fun u hu => ?_) k hs
    rcases mixerTick_frame u with e | e <;> rw [e]
    · exact hu
    · exact hn _ (h2 _ (h1 _ hu))
  · exact channelTicks_keeps c k hs h1 h2 hn

/-- The step, by the head of the stream. -/
theorem step_nil {s : State} (h : s.stream = []) : step s = .next s := by
  simp [step, fetch, h, idle]

theorem step_ok {s : State} {input : Input} {rest : List Input} {i : Instr} (h : s.stream = input :: rest)
    (hd : decode input = .ok i) : step s = exec i { s with stream := rest } := by
  simp [step, fetch, h, hd]

theorem step_error {s : State} {input : Input} {rest : List Input} {e : DecodeError} (h : s.stream = input :: rest)
    (hd : decode input = .error e) : step s = .refused (refusalOf e) := by
  simp [step, fetch, h, hd]

/-- The inversion of the step: it idles, or it completes the decoded head of the stream. -/
theorem step_cases {s t : State} (h : step s = .next t) : (s.stream = [] ∧ t = s) ∨
    ∃ input rest i, s.stream = input :: rest ∧ decode input = .ok i ∧ exec i { s with stream := rest } = .next t := by
  cases hs : s.stream with
  | nil => exact .inl ⟨rfl, (Host.Outcome.next.inj ((step_nil hs).symm.trans h)).symm⟩
  | cons input rest =>
    right
    cases hd : decode input with
    | ok i => exact ⟨input, rest, i, rfl, hd, (step_ok hs hd) ▸ h⟩
    | error e => rw [step_error hs hd] at h; cases h

end Sys2Proof.Laws
end

