-- ==== Sys2Proof/Laws/PerInstr.lean ====
section
/-!
SUPPORT. Statements about every instruction as syntax, one lemma per constructor.
The family EncodesInItsRow says that the encoding of a well-formed operation lies in the row of spec/opcode_table.json
whose mnemonic it has: its word has the row's fixed bits (R52), or its call has the row's name (R44).
-/

namespace Sys2Proof.Laws.EncodesInItsRow

open Sys2Proof Sys2Proof.Laws

def Statement (i : Instr) : Prop :=
  i.wellFormed = true → match encode i with
    | .wr w => ∃ r ∈ opcodeRows, r.mnemonic = i.mnemonic ∧ r.hits w = true
    | .host name _ => name = i.mnemonic

/-- A register with a single address: its row fixes the sixteen address bits. -/
theorem of_addr (mnemonic : String) {i : Instr} {a : Addr} {v : Byte} (he : encode i = .wr (wrWord a v))
    (hm : i.mnemonic = mnemonic) (hr : ⟨mnemonic, wrWord a 0#8, 0xFFFF00#24⟩ ∈ opcodeRows) : Statement i := by
  intro _
  rw [he]
  exact ⟨_, hr, hm.symm, hits_addrRow _ _ _⟩

theorem nr10 (ignored : BitVec 1) (time : BitVec 3) (addition : Bool) (shift : BitVec 3) :
    Statement (.nr10 ignored time addition shift) :=
  of_addr "NR10" rfl rfl (by decide)

theorem nr11 (duty : BitVec 2) (length : BitVec 6) : Statement (.nr11 duty length) :=
  of_addr "NR11" rfl rfl (by decide)

theorem nr12 (initial : BitVec 4) (increase : Bool) (n : BitVec 3) : Statement (.nr12 initial increase n) :=
  of_addr "NR12" rfl rfl (by decide)

theorem nr13 (flo : BitVec 8) : Statement (.nr13 flo) :=
  of_addr "NR13" rfl rfl (by decide)

theorem nr14 (trigger single : Bool) (ignored : BitVec 3) (fhi : BitVec 3) :
    Statement (.nr14 trigger single ignored fhi) :=
  of_addr "NR14" rfl rfl (by decide)

theorem nr21 (duty : BitVec 2) (length : BitVec 6) : Statement (.nr21 duty length) :=
  of_addr "NR21" rfl rfl (by decide)

theorem nr22 (initial : BitVec 4) (increase : Bool) (n : BitVec 3) : Statement (.nr22 initial increase n) :=
  of_addr "NR22" rfl rfl (by decide)

theorem nr23 (flo : BitVec 8) : Statement (.nr23 flo) :=
  of_addr "NR23" rfl rfl (by decide)

theorem nr24 (trigger single : Bool) (ignored : BitVec 3) (fhi : BitVec 3) :
    Statement (.nr24 trigger single ignored fhi) :=
  of_addr "NR24" rfl rfl (by decide)

theorem nr30 (ignored : Byte) : Statement (.nr30 ignored) :=
  of_addr "NR30" rfl rfl (by decide)

theorem nr31 (ignored : Byte) : Statement (.nr31 ignored) :=
  of_addr "NR31" rfl rfl (by decide)

theorem nr32 (ignored : Byte) : Statement (.nr32 ignored) :=
  of_addr "NR32" rfl rfl (by decide)

theorem nr33 (ignored : Byte) : Statement (.nr33 ignored) :=
  of_addr "NR33" rfl rfl (by decide)

theorem nr34 (ignored : Byte) : Statement (.nr34 ignored) :=
  of_addr "NR34" rfl rfl (by decide)

theorem waveram (index : BitVec 4) (ignored : Byte) : Statement (.waveram index ignored) := fun _ =>
  ⟨⟨"WAVERAM", 0xFF3000, 0xFFF000⟩, by decide, rfl, hits_waveramRow _ _⟩

theorem nr41 (ignored : BitVec 2) (length : BitVec 6) : Statement (.nr41 ignored length) :=
  of_addr "NR41" rfl rfl (by decide)

theorem nr42 (initial : BitVec 4) (increase : Bool) (n : BitVec 3) : Statement (.nr42 initial increase n) :=
  of_addr "NR42" rfl rfl (by decide)

theorem nr43 (shiftClock : BitVec 4) (smallStep : Bool) (prescale : BitVec 3) :
    Statement (.nr43 shiftClock smallStep prescale) :=
  of_addr "NR43" rfl rfl (by decide)

theorem nr44 (trigger single : Bool) (ignored : BitVec 6) : Statement (.nr44 trigger single ignored) :=
  of_addr "NR44" rfl rfl (by decide)

theorem nr50 (ignored7 : BitVec 1) (right : BitVec 3) (ignored3 : BitVec 1) (left : BitVec 3) :
    Statement (.nr50 ignored7 right ignored3 left) :=
  of_addr "NR50" rfl rfl (by decide)

theorem nr51 (rightEn leftEn : BitVec 4) : Statement (.nr51 rightEn leftEn) :=
  of_addr "NR51" rfl rfl (by decide)

theorem nr52 (on : Bool) (ignored : BitVec 7) : Statement (.nr52 on ignored) :=
  of_addr "NR52" rfl rfl (by decide)

theorem unmapped (addr : Addr) (ignored : Byte) : Statement (.unmapped addr ignored) := fun _ =>
  ⟨⟨"UNMAPPED", 0, 0⟩, by decide, rfl, by simp [OpcodeRow.hits]⟩

theorem tick : Statement (.tick) := fun _ => rfl

theorem next (sampleRate : U32) : Statement (.next sampleRate) := fun _ => rfl

theorem init : Statement (.init) := fun _ => rfl

theorem setScale (target : ScaleTarget) (v : I32) : Statement (.setScale target v) := fun _ => rfl

theorem ctick (c : Channel) : Statement (.ctick c) := fun _ => rfl

theorem cnext (c : Channel) (sampleRate : U32) : Statement (.cnext c sampleRate) := fun _ => rfl

end Sys2Proof.Laws.EncodesInItsRow
end

