-- ==== Sys2Proof/Tests/Slice0.lean ====
section
/-!
SUPPORT. Tests with expected results from the spec's examples and vectors (spec/44_register_writes.md,
spec/95_test_vectors.md), the smoke test of WellFormed, and a witness for the hypotheses of every obligation that has
some. The source of each test stands in its docstring.
-/

namespace Sys2Proof.Tests

open Sys2Proof Sys2Proof.Machine

/-! ### Small states -/

/-- The reset state with the given tone channel 1. -/
def withTone1 (T : ToneChannel) : State :=
  { State.reset with mixer := { Mixer.reset with tone1 := T } }

/-- The reset state with the given tone channel 2. -/
def withTone2 (T : ToneChannel) : State :=
  { State.reset with mixer := { Mixer.reset with tone2 := T } }

/-- The reset state with the given noise channel. -/
def withNoise (N : NoiseChannel) : State :=
  { State.reset with mixer := { Mixer.reset with noise := N } }

/-- A tone channel just triggered: 50 % duty, amplitude 15, `gbfreq` 1750 (example X9). -/
def x9 : ToneChannel :=
  { ToneChannel.reset with
    running := true, duty := 2, gbfreq := 1750, len := ⟨0, 0, true⟩, env := ⟨0, 15, false, 0, 15⟩ }

/-- A noise channel just triggered, amplitude 15 (vector V10). -/
def noise1 : NoiseChannel :=
  { NoiseChannel.reset with running := true, lfsr := 1, len := ⟨0, 0, true⟩, env := ⟨0, 15, false, 0, 15⟩ }

/-- A powered block with tone 1 sounding, at the given volumes and routing. -/
def powered (right left : BitVec 3) (terminal : Terminals) (scale : I32) : State :=
  { State.reset with mixer := { Mixer.reset with
    tone1 := x9, enabled := true, volumeRight := right, volumeLeft := left, terminal := terminal
    scaleAmplitude := scale } }

/-- What the host receives from one operation. -/
def returned (i : Instr) (s : State) : Option Result :=
  (nextState (exec i s)).map State.result

/-- Tone channel 1 after one operation. -/
def tone1After (i : Instr) (s : State) : Option ToneChannel :=
  (nextState (exec i s)).map fun t => t.mixer.tone1

/-- Tone channel 2 after one operation. -/
def tone2After (i : Instr) (s : State) : Option ToneChannel :=
  (nextState (exec i s)).map fun t => t.mixer.tone2

/-- The noise channel after one operation. -/
def noiseAfter (i : Instr) (s : State) : Option NoiseChannel :=
  (nextState (exec i s)).map fun t => t.mixer.noise

/-- The Mixer after one operation. -/
def mixerAfter (i : Instr) (s : State) : Option Mixer :=
  (nextState (exec i s)).map State.mixer

/-! ### WellFormed: each check refuses an ill-formed term (R27, R52, R137) -/

theorem test_unmapped_at_nr10_is_ill_formed : (Instr.unmapped 0xFF10 0).wellFormed = false := by decide
theorem test_unmapped_at_nr14_is_ill_formed : (Instr.unmapped 0xFF14 0).wellFormed = false := by decide
theorem test_unmapped_at_nr34_is_ill_formed : (Instr.unmapped 0xFF1E 0).wellFormed = false := by decide
theorem test_unmapped_at_nr52_is_ill_formed : (Instr.unmapped 0xFF26 0).wellFormed = false := by decide
theorem test_unmapped_in_wave_ram_is_ill_formed :
    (Instr.unmapped 0xFF30 0).wellFormed = false ∧ (Instr.unmapped 0xFF3F 0).wellFormed = false := by decide
theorem test_the_holes_are_well_formed :
    (Instr.unmapped 0xFF15 0).wellFormed = true ∧ (Instr.unmapped 0xFF1F 0).wellFormed = true ∧
    (Instr.unmapped 0xFF27 0).wellFormed = true ∧ (Instr.unmapped 0xFF2F 0).wellFormed = true ∧
    (Instr.unmapped 0xFF0F 0).wellFormed = true ∧ (Instr.unmapped 0xFF40 0).wellFormed = true := by decide
theorem test_rates_outside_the_contract : (Instr.next 0).inContract = false ∧
    (Instr.next 1048577).inContract = false ∧ (Instr.cnext .noise 0).inContract = false ∧
    (Instr.cnext .tone1 1048577).inContract = false := by decide
theorem test_rates_inside_the_contract : (Instr.next 1).inContract = true ∧
    (Instr.next 1048576).inContract = true ∧ (Instr.cnext .tone2 44100).inContract = true := by decide

/-! ### Decode: words written out from the spec's encodings -/

/-- R105 and V7: `WR NR10, 0x11`, `0x5A`, `0xF0`, bit by bit `{0xFF10, x, time, sub, shift}`. -/
theorem test_decode_nr10 : decodeWord 0b111111110001000000010001 = .nr10 0 1 true 1 ∧
    decodeWord 0b111111110001000001011010 = .nr10 0 5 false 2 ∧
    decodeWord 0xFF10F0 = .nr10 1 7 true 0 := by decide
/-- R106 and V7. -/
theorem test_decode_nr11 : decodeWord 0b111111110001000110111110 = .nr11 2 62 ∧ decodeWord 0xFF11C5 = .nr11 3 5 := by
  decide
/-- R107 and V7. -/
theorem test_decode_nr12 : decodeWord 0b111111110001001011110000 = .nr12 15 false 0 ∧
    decodeWord 0xFF12A3 = .nr12 10 false 3 ∧ decodeWord 0xFF123B = .nr12 3 true 3 := by decide
/-- R108. -/
theorem test_decode_nr13 : decodeWord 0b111111110001001111010110 = .nr13 0xD6 := by decide
/-- R109 and V7. -/
theorem test_decode_nr14 : decodeWord 0b111111110001010010000110 = .nr14 true false 0 6 ∧
    decodeWord 0xFF1438 = .nr14 false false 7 0 ∧ decodeWord 0xFF14C7 = .nr14 true true 0 7 := by decide
/-- R110 to R113. -/
theorem test_decode_tone2 : decodeWord 0xFF16BE = .nr21 2 62 ∧ decodeWord 0xFF17F0 = .nr22 15 false 0 ∧
    decodeWord 0xFF171A = .nr22 1 true 2 ∧ decodeWord 0xFF18D6 = .nr23 0xD6 ∧
    decodeWord 0xFF1986 = .nr24 true false 0 6 := by decide
/-- R114 to R118. -/
theorem test_decode_wave_registers : decodeWord 0xFF1A80 = .nr30 0x80 ∧ decodeWord 0xFF1B80 = .nr31 0x80 ∧
    decodeWord 0xFF1C80 = .nr32 0x80 ∧ decodeWord 0xFF1D80 = .nr33 0x80 ∧ decodeWord 0xFF1E80 = .nr34 0x80 := by
  decide
/-- R119: the first, an inner and the last byte of wave RAM. -/
theorem test_decode_waveram : decodeWord 0xFF3000 = .waveram 0 0 ∧ decodeWord 0xFF3A5C = .waveram 10 0x5C ∧
    decodeWord 0xFF3FFF = .waveram 15 0xFF := by decide
/-- R120, V10: `WR NR41, 0x3E` and `0xFF`. -/
theorem test_decode_nr41 : decodeWord 0b111111110010000000111110 = .nr41 0 62 ∧ decodeWord 0xFF20FF = .nr41 3 63 := by
  decide
/-- R121. -/
theorem test_decode_nr42 : decodeWord 0xFF21F0 = .nr42 15 false 0 := by decide
/-- R122, V10: `WR NR43, 0x08`, `0xFB` and `0x27`. -/
theorem test_decode_nr43 : decodeWord 0b111111110010001000001000 = .nr43 0 true 0 ∧
    decodeWord 0xFF22FB = .nr43 15 true 3 ∧ decodeWord 0xFF2227 = .nr43 2 false 7 := by decide
/-- R123. -/
theorem test_decode_nr44 : decodeWord 0b111111110010001111000000 = .nr44 true true 0 := by decide
/-- R124, V11: the right volume is the high field. -/
theorem test_decode_nr50 : decodeWord 0xFF2477 = .nr50 0 7 0 7 ∧ decodeWord 0xFF2470 = .nr50 0 7 0 0 ∧
    decodeWord 0xFF2488 = .nr50 1 0 1 0 := by decide
/-- R125. -/
theorem test_decode_nr51 : decodeWord 0xFF2511 = .nr51 1 1 ∧ decodeWord 0xFF2521 = .nr51 2 1 := by decide
/-- R126, V12. -/
theorem test_decode_nr52 : decodeWord 0xFF2680 = .nr52 true 0 ∧ decodeWord 0xFF267F = .nr52 false 0x7F ∧
    decodeWord 0xFF2677 = .nr52 false 0x77 := by decide
/-- R127, V12. -/
theorem test_decode_unmapped : decodeWord 0xFF1580 = .unmapped 0xFF15 0x80 ∧
    decodeWord 0x1234AB = .unmapped 0x1234 0xAB ∧ decodeWord 0xFF2780 = .unmapped 0xFF27 0x80 ∧
    decodeWord 0x000080 = .unmapped 0 0x80 ∧ decodeWord 0xFFFF80 = .unmapped 0xFFFF 0x80 ∧
    decodeWord 0xFF1FFF = .unmapped 0xFF1F 0xFF := by decide
/-- R42, R44: each host operation by its name and arguments. -/
theorem test_decode_host : decodeCall (.host "TICK" []) = .ok .tick ∧
    decodeCall (.host "NEXT" [.u32 44100]) = .ok (.next 44100) ∧ decodeCall (.host "INIT" []) = .ok .init ∧
    decodeCall (.host "SET_SCALE" [.component .mixer, .i32 16384]) = .ok (.setScale .mixer 16384) ∧
    decodeCall (.host "CTICK" [.component .tone1]) = .ok (.ctick .tone1) ∧
    decodeCall (.host "CNEXT" [.component .tone1, .u32 44100]) = .ok (.cnext .tone1 44100) := by decide
/-- R42, R131: the noise channel has no scale, the Mixer is no channel, arguments must be there. -/
theorem test_decode_host_refuses :
    decodeCall (.host "SET_SCALE" [.component .noise, .i32 1]) = .error .unknownOperation ∧
    decodeCall (.host "CTICK" [.component .mixer]) = .error .unknownOperation ∧
    decodeCall (.host "NEXT" []) = .error .unknownOperation ∧
    decodeCall (.host "READ" []) = .error .unknownOperation := by decide
/-- The table's numbering (bit 0 is the value's): the host's entry reads the same words. -/
theorem test_decode_table_word : decodeTableWord 24 0xFF1011 = some (.nr10 0 1 true 1) ∧
    decodeTableWord 24 0 = some (.unmapped 0 0) := by decide
/-- R43, R109: the encoder writes the words the spec writes. -/
theorem test_encode : encode (.nr14 true false 0 6) = .wr 0xFF1486 ∧ encode (.nr10 0 1 true 1) = .wr 0xFF1011 ∧
    encode (.waveram 10 0x5C) = .wr 0xFF3A5C ∧ encode (.nr43 15 true 3) = .wr 0xFF22FB := by decide

/-! ### The notation (R55, R56) -/

/-- Lines of program P1 and their encodings. -/
theorem test_assemble_writes : assembleLine "WR NR52, 0x80" = [.wr 0xFF2680] ∧
    assembleLine "WR NR14, 0x86 ; trigger" = [.wr 0xFF1486] ∧ assembleLine "WR 0xFF15, 1" = [.wr 0xFF1501] := by
  decide
theorem test_assemble_host : assembleLine "SCALE mixer, 16384" = [encode (.setScale .mixer 16384)] ∧
    assembleLine "SCALE tone1, -1" = [encode (.setScale .tone1 0xFFFFFFFF)] ∧
    assembleLine "NEXT 44100" = [encode (.next 44100)] ∧ assembleLine "TICKS 2" = [encode .tick, encode .tick] := by
  decide
/-- `TRIG 1, 1750, 0` is the pair of writes of P1's steps 8 and 9. -/
theorem test_assemble_trig : assembleLine "TRIG 1, 1750, 0" = [.wr 0xFF13D6, .wr 0xFF1486] ∧
    assembleLine "TRIGN 1" = [.wr 0xFF23C0] := by decide
/-- R55: the channel number and the `single` bit are numbers like any other, so they may be hexadecimal; R56: 1 or 2, and
0 or 1. -/
theorem test_assemble_trig_hex : assembleLine "TRIG 0x1, 0x6D6, 0x0" = [.wr 0xFF13D6, .wr 0xFF1486] ∧
    assembleLine "TRIGN 0x1" = [.wr 0xFF23C0] ∧
    (["TRIGN 2", "SETF 0, 1, 0", "SETF 3, 1, 0"].flatMap assembleLine).map decodeCall =
      List.replicate 3 (.error .unknownOperation) := by decide
/-- R55: hexadecimal digits in both cases, and none above the base. -/
theorem test_digits : natOfChars "0xDf".toList = some 223 ∧ natOfChars "1750".toList = some 1750 ∧
    natOfChars "1a".toList = none ∧ natOfChars "0x".toList = none ∧ natOfChars "0xg".toList = none := by decide
/-- A line that is no operation decodes to none. -/
theorem test_assemble_unknown : (assembleLine "READ NR52").map decodeCall = [.error .unknownOperation] := by decide
/-- R56: a log line and its place before the TICK whose count it reached. -/
theorem test_replay : readLogLine "1 FF26 80" = some ⟨1, 0xFF26, 0x80⟩ ∧
    replay 2 0 [⟨1, 0xFF26, 0x80⟩] = [encode .tick, .wr 0xFF2680, encode .tick] := by decide

/-! ### The step -/

/-- The host's way in: the word placed by withFetchWord is the first instruction after reset (example of R105). -/
theorem test_fetch_word_runs : ((nextState (step (State.reset.withFetchWord 24 0xFF1011))).map
    fun t => t.mixer.tone1.sweep) = some ⟨false, 0, 1, true, 1⟩ := by decide
/-- R137. -/
theorem test_overlap_is_refused : refusal (step { State.reset with
    stream := [.overlapping (encode .tick) (encode (.nr13 1))] }) = some .Unserialized := by decide
/-- R37: two writes in order, from the notation, end in the second one's value. -/
theorem test_writes_in_order : (match Sys2Proof.core.run 2 (State.reset.issue (assemble ["WR NR13, 1", "WR NR13, 2"])) with
    | .next t => some t.mixer.tone1.gbfreq
    | .fault _ => none
    | .refused _ => none) = some 2 := by decide

/-! ### Counting primitives -/

/-- V1, row by row. -/
theorem test_counter_tick : counterTick 0 3 1 = (false, 1) ∧ counterTick 2 3 1 = (true, 0) ∧
    counterTick 1 3 3 = (true, 0) ∧ counterTick 5 3 1 = (true, 0) ∧ counterTick 0 0 1 = (true, 0) ∧
    counterTick 0 1 1 = (true, 0) ∧ counterTick 0 0 0 = (false, 0) ∧ counterTick 4 10 0 = (false, 4) ∧
    counterTick 297 298 1 = (true, 0) := by decide
/-- V2, row by row. -/
theorem test_divider_init : (dividerInit 20 9).shift = 11 ∧ (dividerInit 9 7).shift = 2 ∧
    (dividerInit 9 8).shift = 1 ∧ (dividerInit 9 6).shift = 3 ∧ (dividerInit 0 0).shift = 0 ∧
    (dividerInit 5 9).shift = 0 := by decide
/-- X1, row by row; the last sum wraps (D19). -/
theorem test_divider_step : dividerStep ⟨0, 11⟩ 1 = (0, ⟨1, 11⟩) ∧ dividerStep ⟨2047, 11⟩ 1 = (1, ⟨0, 11⟩) ∧
    dividerStep ⟨2047, 11⟩ 2049 = (2, ⟨0, 11⟩) ∧ dividerStep ⟨3, 2⟩ 5 = (2, ⟨0, 2⟩) ∧
    dividerStep ⟨1, 1⟩ 0 = (0, ⟨1, 1⟩) ∧ dividerStep ⟨0, 0⟩ 5 = (5, ⟨0, 0⟩) ∧
    dividerStep ⟨7, 3⟩ 9 = (2, ⟨0, 3⟩) ∧ dividerStep ⟨0x7FFFFFFF, 31⟩ 0x80000005 = (0, ⟨4, 31⟩) := by decide
/-- X2. -/
theorem test_frequency_hz : frequencyHz 0 = 64 ∧ frequencyHz 1 = 64 ∧ frequencyHz 1024 = 128 ∧
    frequencyHz 1750 = 439 ∧ frequencyHz 1792 = 512 ∧ frequencyHz 2047 = 131072 := by decide

/-! ### Register writes, one or two small steps each -/

/-- V7: NR10 with bit 7 set keeps `sweep_enabled` and the count. -/
theorem test_nr10 : (tone1After (.nr10 1 7 true 0) (withTone1 { x9 with sweep := ⟨true, 5, 1, false, 3⟩ })).map
    ToneChannel.sweep = some ⟨true, 5, 7, true, 0⟩ := by decide
/-- V7: NR11 keeps `len_count`. -/
theorem test_nr11 : (tone1After (.nr11 3 5) (withTone1 { x9 with len := ⟨17, 0, true⟩ })).map
    (fun T => (T.duty, T.len)) = some (3, ⟨17, 5, true⟩) := by decide
/-- V7: NR12 loads the amplitude and keeps `env_count`. -/
theorem test_nr12 : (tone1After (.nr12 10 false 3) (withTone1 { x9 with env := ⟨2, 15, true, 5, 12⟩ })).map
    ToneChannel.env = some ⟨2, 10, false, 3, 10⟩ := by decide
/-- V7. -/
theorem test_nr13 : (tone1After (.nr13 0xFF) (withTone1 { x9 with gbfreq := 0x6D6 })).map
    ToneChannel.gbfreq = some 0x6FF := by decide
/-- V7: bits 5..3 are ignored and `repeat` is written without a trigger. -/
theorem test_nr14_frequency_only : (tone1After (.nr14 false false 7 0)
    (withTone1 { ToneChannel.reset with gbfreq := 0x6FF })).map
    (fun T => (T.gbfreq, T.len.repeats, T.running)) = some (0x0FF, true, false) := by decide
/-- X3 and V7: the counts go to 0, the amplitude is not reloaded, `sweep_time = 0` leaves the sweep off. -/
theorem test_nr14_trigger : (tone1After (.nr14 true true 0 6) (withTone1 { ToneChannel.reset with
    gbfreq := 0x0D6, len := ⟨17, 0, true⟩, env := ⟨3, 15, false, 4, 12⟩ })).map
    (fun T => (T.gbfreq, T.running, T.sweep.enabled, T.len, T.env)) =
      some (0x6D6, true, false, ⟨0, 0, false⟩, ⟨0, 15, false, 4, 12⟩) := by decide
/-- R110. -/
theorem test_nr21 : (tone2After (.nr21 2 62) (withTone2 x9)).map (fun T => (T.duty, T.len.length)) = some (2, 62) := by
  decide
/-- R111. -/
theorem test_nr22 : (tone2After (.nr22 1 true 2) (withTone2 x9)).map ToneChannel.env = some ⟨0, 1, true, 2, 1⟩ := by
  decide
/-- R112. -/
theorem test_nr23 : (tone2After (.nr23 0xD6) (withTone2 { x9 with gbfreq := 0x600 })).map
    ToneChannel.gbfreq = some 0x6D6 := by decide
/-- R113. -/
theorem test_nr24 : (tone2After (.nr24 true false 0 6) (withTone2 { ToneChannel.reset with gbfreq := 0x0D6 })).map
    (fun T => (T.gbfreq, T.running, T.len.repeats)) = some (0x6D6, true, true) := by decide
/-- V12: no wave register, wave RAM or unmapped write changes the block. -/
theorem test_ignored_writes : ([.nr30 0x80, .nr31 0xFF, .nr32 0x60, .nr33 0xFF, .nr34 0xC7, .waveram 15 0xFF,
    .unmapped 0xFF15 0] : List Instr).all (fun i => mixerAfter i (withTone1 x9) == some (withTone1 x9).mixer) = true := by
  decide
/-- R120. -/
theorem test_nr41 : (noiseAfter (.nr41 3 63) (withNoise { noise1 with len := ⟨9, 0, true⟩ })).map
    NoiseChannel.len = some ⟨9, 63, true⟩ := by decide
/-- R121. -/
theorem test_nr42 : (noiseAfter (.nr42 15 false 0) State.reset).map NoiseChannel.env = some ⟨0, 15, false, 0, 15⟩ := by
  decide
/-- V10. -/
theorem test_nr43 : (noiseAfter (.nr43 2 false 7) (withNoise noise1)).map
    (fun N => (N.shiftClock, N.smallStep, N.prescale, N.lfsr)) = some (2, false, 7, 1) := by decide
/-- V10: `WR NR44, 0xC0` and `WR NR44, 0x00`. -/
theorem test_nr44 : (noiseAfter (.nr44 true true 0) (withNoise { noise1 with
      lfsr := 0x55, last := 1, prescaleCount := 2, shiftCount := 3, len := ⟨4, 1, true⟩, env := ⟨5, 15, false, 6, 7⟩ })) =
      some { noise1 with len := ⟨0, 1, false⟩, env := ⟨0, 15, false, 6, 7⟩ } ∧
    noiseAfter (.nr44 false false 0) (withNoise { NoiseChannel.reset with lfsr := 0x55 }) =
      some { NoiseChannel.reset with lfsr := 0x55, len := ⟨0, 0, true⟩ } := by decide
/-- R124. -/
theorem test_nr50 : (mixerAfter (.nr50 0 7 0 0) State.reset).map (fun m => (m.volumeRight, m.volumeLeft)) =
    some (7, 0) := by decide
/-- V11: NR51 values 0x21, 0x0F and 0xF0. -/
theorem test_nr51 : (mixerAfter (.nr51 2 1) State.reset).map Mixer.terminal = some ⟨2, 1, 0, 0⟩ ∧
    (mixerAfter (.nr51 0 15) State.reset).map Mixer.terminal = some ⟨2, 2, 2, 2⟩ ∧
    (mixerAfter (.nr51 15 0) State.reset).map Mixer.terminal = some ⟨1, 1, 1, 1⟩ := by decide
/-- V12. -/
theorem test_nr52 : (mixerAfter (.nr52 true 0) State.reset).map Mixer.enabled = some true ∧
    (mixerAfter (.nr52 false 0x77) (powered 7 7 ⟨3, 0, 0, 0⟩ 0)).map Mixer.enabled = some false := by decide

/-! ### Host operations and ticks -/

/-- V13, R148. -/
theorem test_init : mixerAfter .init (powered 7 7 ⟨3, 0, 0, 0⟩ 5) = some Mixer.reset := by decide
/-- V13: TICK, NEXT and CTICK after INIT. -/
theorem test_pulls_after_init : returned .tick State.reset = some (.stereo 0 0) ∧
    returned (.next 1048576) State.reset = some (.mono 0) ∧ returned (.ctick .tone1) State.reset = some (.mono 0) := by
  decide
/-- V11 and X8: routing and volume of one tone channel at +15. -/
theorem test_tick_routes : returned .tick (powered 7 7 ⟨3, 0, 0, 0⟩ 0) = some (.stereo 120 120) ∧
    returned .tick (powered 7 7 ⟨1, 0, 0, 0⟩ 0) = some (.stereo 0 120) ∧
    returned .tick (powered 0 3 ⟨2, 0, 0, 0⟩ 0) = some (.stereo 60 0) ∧
    returned .tick (powered 7 0 ⟨3, 0, 0, 0⟩ 0) = some (.stereo 15 120) := by decide
/-- V11: with nothing routed tone 1 still advances. -/
theorem test_tick_advances_unrouted : (tone1After .tick (powered 7 7 ⟨0, 0, 0, 0⟩ 0)).map ToneChannel.phaseCount =
    some 1 := by decide
/-- P1 step 11: NEXT at 2^20 is one TICK, scaled. -/
theorem test_next_one_tick : returned (.next 1048576) (powered 7 7 ⟨3, 0, 0, 0⟩ 16384) = some (.mono 3840) ∧
    (tone1After (.next 1048576) (powered 7 7 ⟨3, 0, 0, 0⟩ 16384)).map (fun T => T.divSeq.remainder) = some 1 := by
  decide
/-- V11's `mixer_next` rows: both divisions truncate toward zero, the result wraps. -/
theorem test_mono_out : monoOut ⟨-3, 0⟩ 512 = .ofInt 16 (-1) ∧ monoOut ⟨-1, 0⟩ 512 = 0 ∧ monoOut ⟨7, 0⟩ 1000 = 5 ∧
    monoOut ⟨-7, 0⟩ 1000 = .ofInt 16 (-5) ∧ monoOut ⟨120, 120⟩ (.ofInt 32 (-512)) = .ofInt 16 (-120) ∧
    monoOut ⟨360, 360⟩ 46603 = 32767 ∧ monoOut ⟨360, 360⟩ 46604 = .ofInt 16 (-32768) ∧
    monoOut ⟨-360, -360⟩ 46604 = .ofInt 16 (-32768) ∧ monoOut ⟨360, 360⟩ 65536 = .ofInt 16 (-19456) ∧
    monoOut ⟨360, 360⟩ 2147483647 = .ofInt 16 (-1) := by decide
/-- R137, V8: the refused rates. -/
theorem test_bad_rates : refusal (exec (.next 0) State.reset) = some .BadSampleRate ∧
    refusal (exec (.next 1048577) State.reset) = some .BadSampleRate ∧
    refusal (exec (.cnext .tone1 0) State.reset) = some .BadSampleRate := by decide
/-- V13: the set is absolute. -/
theorem test_set_scale : (mixerAfter (.setScale .mixer 100) (powered 7 7 ⟨3, 0, 0, 0⟩ 16384)).map
    Mixer.scaleAmplitude = some 100 := by decide
/-- V13: CTICK of X9's channel with the Mixer off. -/
theorem test_ctick : returned (.ctick .tone1) (withTone1 x9) = some (.mono 15) := by decide
/-- V8: CNEXT at 44100 is 23 ticks. -/
theorem test_cnext : returned (.cnext .tone1 44100) (withTone1 x9) = some (.mono 15) ∧
    (tone1After (.cnext .tone1 44100) (withTone1 x9)).map ToneChannel.phaseCount = some 23 := by decide +kernel
/-- V10: the second CTICK after a noise trigger. -/
theorem test_noise_tick : returned (.ctick .noise) (withNoise { noise1 with lfsr := 0x4000, last := 1 }) =
      some (.mono (.ofInt 16 (-15))) ∧
    (noiseAfter (.ctick .noise) (withNoise { noise1 with lfsr := 0x4000, last := 1 })).map (fun N => (N.lfsr, N.last)) =
      some (0x2000, 0) := by decide

/-! ### The channel units -/

/-- X9: the last tick of the high half is +15 and moves `duty_count` to 4, whose sample is −15. -/
theorem test_tone_half_wave : (toneTick { x9 with phaseCount := 297, dutyCount := 3 }).1 = 15 ∧
    (toneTick { x9 with phaseCount := 297, dutyCount := 3 }).2.dutyCount = 4 ∧
    (toneTick { x9 with dutyCount := 4 }).1 = -15 ∧
    (toneTick { x9 with phaseCount := 297, dutyCount := 7 }).2.dutyCount = 0 := by decide
/-- V4: the first low duty step of each code. -/
theorem test_duty_codes : ([(0, 1), (1, 2), (2, 4), (3, 6)] : List (BitVec 2 × BitVec 3)).all (fun p =>
    (toneTick { x9 with duty := p.1, dutyCount := p.2 }).1 == -15 &&
    (toneTick { x9 with duty := p.1, dutyCount := p.2 - 1 }).1 == 15) = true := by decide
/-- V5, row by row: `gbfreq`, `running` and `sweep_enabled` after the first sweep pulse. -/
theorem test_sweep : ([(1365, 1, true, 2047, true), (1366, 1, true, 1366, false), (1023, 0, true, 2046, true),
    (1024, 0, true, 1024, false), (2047, 0, true, 2047, false), (0, 0, true, 0, true), (1000, 0, false, 1000, true),
    (1000, 2, false, 750, true), (1, 7, false, 1, true)] :
    List (BitVec 11 × BitVec 3 × Bool × BitVec 11 × Bool)).all (fun (g, shift, addition, g', alive) =>
      let T := toneSweep { x9 with gbfreq := g, sweep := ⟨true, 0, 1, addition, shift⟩ } 1
      T.gbfreq == g' && T.running == alive && T.sweep.enabled == alive && T.sweep.count == 0) = true := by decide
/-- X4: the stopping tick still emits its sample (duty step 7) and still runs the length step (P2). -/
theorem test_sweep_stop : (toneTick { x9 with
      gbfreq := 2047, dutyCount := 7, divSeq := ⟨2047, 11⟩, divSweep := ⟨3, 2⟩, divLen := ⟨1, 1⟩, divEnv := ⟨3, 3⟩
      len := ⟨1, 0, true⟩, sweep := ⟨true, 0, 1, true, 0⟩ }) =
    (-15, { x9 with
      running := false, gbfreq := 2047, dutyCount := 0, divSeq := ⟨0, 11⟩, divSweep := ⟨0, 2⟩, divLen := ⟨0, 1⟩
      divEnv := ⟨4, 3⟩, len := ⟨2, 0, true⟩, sweep := ⟨false, 0, 1, true, 0⟩ }) := by decide
/-- X5: the second pulse at length 62, without and with `repeat`. -/
theorem test_length : (toneLength { x9 with len := ⟨1, 62, false⟩ } 1).running = false ∧
    (toneLength { x9 with len := ⟨1, 62, true⟩ } 1).running = true ∧
    (toneLength { x9 with len := ⟨1, 62, true⟩ } 1).len.count = 0 ∧
    (toneLength { x9 with len := ⟨0, 62, false⟩ } 1).running = true := by decide
/-- V6: clamps, freeze and the second of two pulses. -/
theorem test_envelope : (envelopeStep ⟨0, 15, true, 1, 15⟩ 1).amplitude = 15 ∧
    (envelopeStep ⟨0, 0, false, 1, 0⟩ 1).amplitude = 0 ∧ (envelopeStep ⟨0, 15, false, 1, 15⟩ 1).amplitude = 14 ∧
    envelopeStep ⟨0, 7, false, 0, 7⟩ 1 = ⟨0, 7, false, 0, 7⟩ ∧
    envelopeStep ⟨0, 1, true, 2, 1⟩ 1 = ⟨1, 1, true, 2, 1⟩ ∧
    envelopeStep ⟨1, 1, true, 2, 1⟩ 1 = ⟨0, 1, true, 2, 2⟩ := by decide
/-- X7 and V9: the first advances and those around the first reseeding of bit 14, in both modes. -/
theorem test_lfsr : lfsrNext false 1 = 0x4000 ∧ lfsrNext true 1 = 0x4040 ∧ lfsrNext false 2 = 0x4001 ∧
    lfsrNext false 0x4001 = 0x6000 ∧ lfsrNext true 0x0202 = 0x4141 ∧ lfsrNext true 0x4141 = 0x60E0 ∧
    lfsrNext true 0x4347 = 0x21A3 ∧ (lfsrAdvance { noise1 with lfsr := 1 }).last = 1 := by decide
/-- R87, C4: a register of 0 advances as 1. -/
theorem test_lfsr_zero : lfsrNext false 0 = 0x4000 := by decide

/-! ### Witnesses: concrete states and operands that meet the hypotheses of each obligation -/

theorem witness_DecodeInvertsEncode : (Instr.unmapped 0xFF15 0x80).wellFormed = true := by decide

/-- A word placed for the step, and the empty stream. -/
theorem witness_StepRunsTheDecodedOperation :
    ((State.reset.withFetchWord 24 0xFF1011).stream = .one (.wr 0xFF1011) :: [] ∧
      decode (.one (.wr 0xFF1011)) = .ok (.nr10 0 1 true 1)) ∧ State.reset.stream = [] := by decide

/-- The overlap; then, of the second clause, an unknown name and each name with arguments that are not its own. -/
theorem witness_TermsThatAreNoOperationAreRefused :
    ({ State.reset with stream := [.overlapping (encode .tick) (encode .tick)] }).stream =
      .overlapping (encode .tick) (encode .tick) :: [] ∧
    ∀ call ∈ ([("READ", []), ("TICK", [.u32 1]), ("INIT", [.u32 1]), ("NEXT", []),
      ("SET_SCALE", [.component .noise, .i32 1]), ("CTICK", [.component .mixer]),
      ("CNEXT", [.component .mixer, .u32 1])] : List (String × List Arg)),
      let name := call.1
      let args := call.2
      ({ State.reset with stream := [.one (.host name args)] }).stream = .one (.host name args) :: [] ∧
      ¬ ((name = "TICK" ∧ args = []) ∨ (name = "INIT" ∧ args = []) ∨
        (name = "NEXT" ∧ ∃ r, args = [.u32 r]) ∨
        (name = "SET_SCALE" ∧ ∃ c v, c ≠ Component.noise ∧ args = [.component c, .i32 v]) ∨
        (name = "CTICK" ∧ ∃ c, c ≠ Component.mixer ∧ args = [.component c]) ∨
        (name = "CNEXT" ∧ ∃ c r, c ≠ Component.mixer ∧ args = [.component c, .u32 r])) := by
  refine ⟨rfl, ?_⟩
  simp only [List.forall_mem_cons]
  refine ⟨?_, ?_, ?_, ?_, ?_, ?_, ?_, by simp⟩ <;> simp

theorem witness_WritingTwiceIsWritingOnce : ∃ t, exec (decodeWord 0xFF1486) State.reset = .next t := ⟨_, rfl⟩

theorem witness_WritesIgnoreThePowerFlag : (∀ on x, decodeWord 0xFF1486 ≠ .nr52 on x) ∧
    ∃ t, exec (decodeWord 0xFF1486) State.reset = .next t := ⟨by decide, _, rfl⟩

/-- The rates 0, 2^20 + 1 and 2^32 − 1; the rates 1 and 2^20 with, for each channel, a powered block in which it runs
with the shift 32 in its last divider. -/
theorem witness_BadRatesAndBadShiftsAreRefused : ((0 : U32).toNat = 0 ∨ 2 ^ 20 < (0 : U32).toNat) ∧
    ((1048577 : U32).toNat = 0 ∨ 2 ^ 20 < (1048577 : U32).toNat) ∧
    ((0xFFFFFFFF : U32).toNat = 0 ∨ 2 ^ 20 < (0xFFFFFFFF : U32).toNat) ∧
    (1 ≤ (1 : U32).toNat ∧ (1 : U32).toNat ≤ 2 ^ 20) ∧ (1 ≤ (1048576 : U32).toNat ∧ (1048576 : U32).toNat ≤ 2 ^ 20) ∧
    (let m : Mixer := { Mixer.reset with enabled := true, tone1 := { x9 with divEnv := ⟨0, 32⟩ } };
      m.enabled = true ∧ m.tone1.running = true ∧ 32 ≤ m.tone1.divEnv.shift.toNat) ∧
    (let m : Mixer := { Mixer.reset with enabled := true, tone2 := { x9 with divEnv := ⟨0, 32⟩ } };
      m.enabled = true ∧ m.tone2.running = true ∧ 32 ≤ m.tone2.divEnv.shift.toNat) ∧
    (let m : Mixer := { Mixer.reset with enabled := true, noise := { noise1 with divEnv := ⟨0, 32⟩ } };
      m.enabled = true ∧ m.noise.running = true ∧ 32 ≤ m.noise.divEnv.shift.toNat) := by decide

theorem witness_PoweredOffPullsAreSilent : State.reset.mixer.enabled = false ∧
    (1 ≤ (1 : U32).toNat ∧ (1 : U32).toNat ≤ 2 ^ 20) ∧ 1 ≤ (1048576 : U32).toNat ∧ (1048576 : U32).toNat ≤ 2 ^ 20 := by
  decide

theorem witness_StoppedChannelsHoldAndReturnZero : (1 ≤ (1 : U32).toNat ∧ (1 : U32).toNat ≤ 2 ^ 20) ∧
    State.reset.mixer.tone1.running = false ∧ State.reset.mixer.tone2.running = false ∧
    State.reset.mixer.noise.running = false := by decide

theorem witness_ChannelTickAdvancesOneChannel : State.reset.mixer.tone1.dividersInRange = true ∧
    State.reset.mixer.tone2.dividersInRange = true ∧ State.reset.mixer.noise.dividersInRange = true := by decide

/-- A good state with a running channel, at the smallest and the largest rate. -/
theorem witness_ChannelNextIsItsTicks : (withTone1 x9).Good ∧ (1 ≤ (1 : U32).toNat ∧ (1 : U32).toNat ≤ 2 ^ 20) ∧
    1 ≤ (1048576 : U32).toNat ∧ (1048576 : U32).toNat ≤ 2 ^ 20 := by decide

theorem witness_TickMixesTheThreeChannelTicks : (powered 7 7 ⟨3, 0, 0, 0⟩ 0).Good ∧
    (powered 7 7 ⟨3, 0, 0, 0⟩ 0).mixer.enabled = true := by decide

theorem witness_NextIsTicksThenScaling : (powered 7 7 ⟨3, 0, 0, 0⟩ 16384).Good ∧
    (1 ≤ (1 : U32).toNat ∧ (1 : U32).toNat ≤ 2 ^ 20) ∧ 1 ≤ (1048576 : U32).toNat ∧ (1048576 : U32).toNat ≤ 2 ^ 20 := by
  decide

theorem witness_WaveSlotIsSilent : ∃ t, exec .tick (powered 7 7 ⟨3, 0, 3, 0⟩ 0) = .next t := ⟨_, rfl⟩

/-- One pull of each kind; NEXT at the largest scale the clause admits. -/
theorem witness_SamplesAreBounded :
    (∃ t v, exec (.ctick .tone1) (withTone1 x9) = .next t ∧ t.result = .mono v) ∧
    (∃ t v, exec (.cnext .tone1 1048576) (withTone1 x9) = .next t ∧ t.result = .mono v) ∧
    (∃ t l r, exec .tick (powered 7 7 ⟨3, 0, 0, 0⟩ 0) = .next t ∧ t.result = .stereo l r) ∧
    ∃ t v, exec (.next 1048576) (powered 7 7 ⟨3, 0, 0, 0⟩ 46603) = .next t ∧ t.result = .mono v ∧
      (powered 7 7 ⟨3, 0, 0, 0⟩ 46603).mixer.scaleAmplitude.toInt.natAbs ≤ 46603 :=
  ⟨⟨_, _, rfl, rfl⟩, ⟨_, _, rfl, rfl⟩, ⟨_, _, _, rfl, rfl⟩, ⟨_, _, rfl, rfl, by decide⟩⟩

/-- The sequencer's divider with its largest remainder, and the largest step the premise admits. -/
theorem witness_DividerNeverDrifts : (⟨2047, 11⟩ : ClockDivider).remainder.toNat < 2 ^ (11 : U32).toNat ∧
    ∀ n ∈ ([1, 0xFFFFF800] : List U32), n.toNat + 2 ^ (11 : U32).toNat ≤ 2 ^ 32 := by simp

/-- Each clause: no pulse; the threshold just reached, and 0; the threshold just missed. -/
theorem witness_CounterTickFiresAtTheThreshold : (0 : U32) = 0 ∧
    ((1 : U32) ≠ 0 ∧ 3 ≤ (2 : U32).toNat + (1 : U32).toNat) ∧ ((1 : U32) ≠ 0 ∧ 0 ≤ (0 : U32).toNat + (1 : U32).toNat) ∧
    (1 : U32) ≠ 0 ∧ (1 : U32).toNat + (1 : U32).toNat < 3 ∧ 3 < 2 ^ 32 := by decide

theorem witness_CounterFiresEveryPeriod : (0 : Nat) < 2 ^ 32 ∧ 4294967295 < 2 ^ 32 := by omega

theorem witness_SubclocksFollowTheSchedule :
    (x9.divSeq = ⟨0, 11⟩ ∧ x9.divSweep = ⟨0, 2⟩ ∧ x9.divLen = ⟨0, 1⟩ ∧ x9.divEnv = ⟨0, 3⟩ ∧
      (∀ j < 2, (toneTicks j x9).2.running = true) ∧ (toneTicks 2 x9).2.running = true) ∧
    noise1.divSeq = ⟨0, 11⟩ ∧ noise1.divLen = ⟨0, 1⟩ ∧ noise1.divEnv = ⟨0, 3⟩ ∧
      (∀ j < 2, (noiseTicks j noise1).2.running = true) ∧ (noiseTicks 2 noise1).2.running = true := by decide

theorem witness_SamplesFollowTheWaveforms : x9.running = true ∧ noise1.running = true := by decide

/-- At the count just reached after the period was lowered. -/
theorem witness_PhaseStepsTheDutyCount : x9.running = true ∧
    ({ x9 with phaseCount := 298 }).running = true ∧
    2048 - ({ x9 with phaseCount := 298 }).gbfreq.toNat ≤ ({ x9 with phaseCount := 298 }).phaseCount.toNat ∧
    ∃ t, exec (.nr13 0) State.reset = .next t := ⟨by decide, by decide, by decide, _, rfl⟩

theorem witness_SequencerFeedsTheSubdividers : x9.running = true ∧ x9.Good ∧ noise1.running = true := by decide

/-- A tone channel with its sweep on, to update at the next sweep pulse. -/
def swept (gbfreq : BitVec 11) (addition : Bool) (shift : BitVec 3) : ToneChannel :=
  { x9 with gbfreq := gbfreq, sweep := ⟨true, 0, 1, addition, shift⟩ }

/-- The pulse count fires the sweep counter of the channel. -/
abbrev sweepFires (T : ToneChannel) (sw : U32) : Bool :=
  (counterTick T.sweep.count T.sweep.time.toNat sw).1

/-- The change `gbfreq / 2^sweep_shift`. -/
abbrev deltaOf (T : ToneChannel) : Nat :=
  T.gbfreq.toNat / 2 ^ T.sweep.shift.toNat

/-- Each clause: off; on without a pulse; the sum 2047; the sum 2048; the delta below and not below `gbfreq`; a running
channel. -/
theorem witness_SweepStepByCases :
    x9.sweep.enabled = false ∧
    (let T := swept 1365 true 1; T.sweep.enabled = true ∧ sweepFires T 0 = false) ∧
    (let T := swept 1365 true 1; T.sweep.enabled = true ∧ sweepFires T 1 = true ∧ T.sweep.addition = true ∧
      T.gbfreq.toNat + deltaOf T ≤ 2047) ∧
    (let T := swept 1024 true 0; T.sweep.enabled = true ∧ sweepFires T 1 = true ∧ T.sweep.addition = true ∧
      2047 < T.gbfreq.toNat + deltaOf T) ∧
    (let T := swept 1 false 7; T.sweep.enabled = true ∧ sweepFires T 1 = true ∧ T.sweep.addition = false ∧
      deltaOf T < T.gbfreq.toNat) ∧
    (let T := swept 1000 false 0; T.sweep.enabled = true ∧ sweepFires T 1 = true ∧ T.sweep.addition = false ∧
      ¬ deltaOf T < T.gbfreq.toNat) ∧
    (swept 1365 true 1).running = true := by decide

theorem witness_LengthExpiryStopsTheChannel : x9.running = true ∧ noise1.running = true := by decide

theorem witness_EnvelopeStepsAndClamps : x9.running = true ∧ noise1.running = true ∧
    (⟨0, 7, false, 0, 7⟩ : EnvelopeUnit).n = 0 ∧
    (⟨0, 7, false, 7, 7⟩ : EnvelopeUnit).n ≠ 0 := by decide

theorem witness_SweepStopSkipsNoLaterStep : x9.running = true := by decide

theorem witness_ToneWaveformHasTheDutyAndPeriod : let s := withTone1 x9
    s.Good ∧ s.mixer.tone1.running = true ∧ s.mixer.tone1.len.repeats = true ∧ s.mixer.tone1.env.n = 0 ∧
    s.mixer.tone1.sweep.enabled = false ∧ s.mixer.tone1.phaseCount = 0 ∧ s.mixer.tone1.dutyCount = 0 := by decide

theorem witness_LengthExpiresOnTime :
    (let T := { x9 with len := ⟨0, 62, false⟩ };
      T.running = true ∧ T.sweep.enabled = false ∧ T.len.repeats = false ∧ T.len.count = 0 ∧
      T.divSeq = ⟨0, 11⟩ ∧ T.divLen = ⟨0, 1⟩) ∧
    (let N := { noise1 with len := ⟨0, 62, false⟩ };
      N.running = true ∧ N.len.repeats = false ∧ N.len.count = 0 ∧ N.divSeq = ⟨0, 11⟩ ∧ N.divLen = ⟨0, 1⟩) := by decide

theorem witness_EnvelopeRampsOnTime :
    (let T := { x9 with env := ⟨0, 1, true, 2, 1⟩ };
      T.running = true ∧ T.sweep.enabled = false ∧ T.len.repeats = true ∧ T.env.n ≠ 0 ∧ T.env.count = 0 ∧
      T.divSeq = ⟨0, 11⟩ ∧ T.divEnv = ⟨0, 3⟩) ∧
    (let N := { noise1 with env := ⟨0, 15, false, 7, 15⟩ };
      N.running = true ∧ N.len.repeats = true ∧ N.env.n ≠ 0 ∧ N.env.count = 0 ∧
      N.divSeq = ⟨0, 11⟩ ∧ N.divEnv = ⟨0, 3⟩) := by decide

theorem witness_LfsrGateDividesTheTicks : noise1.running = true ∧ noise1.len.repeats = true ∧
    noise1.prescaleCount = 0 ∧ noise1.shiftCount = 0 := by decide

theorem witness_LfsrSequenceHasPeriod32767 : (0 < 1 ∧ 1 < 32767) ∧ 0 < 32766 ∧ 32766 < 32767 := by decide

theorem witness_SmallStepSequenceHasCycle21 : (0 < 20 ∧ 20 < 21) ∧ 27 < 28 := by decide

theorem witness_GoodIsKeptByEveryStep : ({ withTone1 x9 with stream := [.one (encode .tick)] }).Good ∧
    ∃ t, step { withTone1 x9 with stream := [.one (encode .tick)] } = .next t := ⟨by decide, _, rfl⟩

theorem witness_RefusedExactlyOutsideTheContract : (withTone1 x9).Good ∧ (Instr.next 1).inContract = true ∧
    (Instr.next 0).inContract = false := by decide

theorem witness_Tone2NeverSweeps : State.reset.Tone2Unswept ∧
    ∃ t, exec (.nr24 true true 0 7) State.reset = .next t := ⟨by decide, ⟨_, rfl⟩⟩

theorem witness_OnlyInitSetsDividerShifts : Instr.tick ≠ .init ∧
    ∃ t, exec .tick (powered 7 7 ⟨3, 0, 0, 0⟩ 0) = .next t := ⟨by decide, _, rfl⟩

/-- Each clause: a trigger of each channel from reset. -/
theorem witness_OnlyTriggersStartAChannel :
    (∃ t, exec (.nr14 true false 0 0) State.reset = .next t ∧ State.reset.mixer.tone1.running = false ∧
      t.mixer.tone1.running = true) ∧
    (∃ t, exec (.nr24 true false 0 0) State.reset = .next t ∧ State.reset.mixer.tone2.running = false ∧
      t.mixer.tone2.running = true) ∧
    ∃ t, exec (.nr44 true false 0) State.reset = .next t ∧ State.reset.mixer.noise.running = false ∧
      t.mixer.noise.running = true :=
  ⟨⟨_, rfl, rfl, rfl⟩, ⟨_, rfl, rfl, rfl⟩, ⟨_, rfl, rfl, rfl⟩⟩

theorem witness_SettingsHaveOneWriter : (∃ t, exec (.nr50 0 7 0 7) State.reset = .next t) ∧
    Instr.nr50 0 7 0 7 ≠ .init := ⟨⟨_, rfl⟩, by decide⟩

theorem witness_UnreadFieldsAreInvisible : (∃ t, exec .tick (powered 7 7 ⟨3, 0, 0, 0⟩ 0) = .next t) ∧
    ∃ r, exec (.next 0) State.reset = .refused r := ⟨⟨_, rfl⟩, _, rfl⟩

theorem witness_TrigSetsTheFrequencyAndRuns : State.reset.stream = [] := by decide

end Sys2Proof.Tests
end

section
/-!
The family of spec/30_encoding.md: `gbfreq` as its high three and low eight bits (R49), and the writes that replace them.
-/

namespace Sys2Proof.Laws

open Sys2Proof Sys2Proof.Machine

/-- The two fields of a frequency, put together, as a number. -/
theorem freqFields_toNat (fhi : BitVec 3) (flo : Byte) :
    (fhi ++ flo : BitVec 11).toNat = fhi.toNat * 256 + flo.toNat := by
  rw [BitVec.toNat_append, ← Nat.shiftLeft_add_eq_or_of_lt flo.isLt, Nat.shiftLeft_eq]

/-- A frequency is its high three bits above its low eight. -/
theorem freqFields_append (g : BitVec 11) : (field g 8 3 ++ field g 0 8 : BitVec 11) = g := by
  apply BitVec.eq_of_toNat_eq
  have := g.isLt
  rw [freqFields_toNat, field_toNat, field_toNat]
  omega

/-- R49, FLO: the value stands in place of the low eight bits. -/
theorem mergeFreqLow_append (fhi : BitVec 3) (lo flo : Byte) :
    mergeFreqLow (fhi ++ lo) flo = (fhi ++ flo : BitVec 11) := by
  have hmask : (0x700#11 : BitVec 11) = (7#3 ++ 0#8 : BitVec 11) := by decide
  have hflo : flo.setWidth 11 = (0#3 ++ flo : BitVec 11) := BitVec.setWidth_eq_append (by decide)
  have hand : fhi &&& 7#3 = fhi := BitVec.and_allOnes
  rw [mergeFreqLow, hmask, hflo, BitVec.and_append, BitVec.or_append, hand]
  simp

/-- R49, FHI: the value stands in place of the high three bits. -/
theorem mergeFreqHigh_append (hi fhi : BitVec 3) (flo : Byte) :
    mergeFreqHigh (hi ++ flo) fhi = (fhi ++ flo : BitVec 11) := by
  have hmask : (0x0FF#11 : BitVec 11) = (0#3 ++ 255#8 : BitVec 11) := by decide
  have hfhi : ∀ fhi : BitVec 3, fhi.setWidth 11 <<< 8 = (fhi ++ 0#8 : BitVec 11) := by decide
  have hand : flo &&& 255#8 = flo := BitVec.and_allOnes
  rw [mergeFreqHigh, hmask, hfhi, BitVec.and_append, BitVec.or_append, hand]
  simp

theorem mergeFreqLow_toNat (g : BitVec 11) (flo : Byte) :
    (mergeFreqLow g flo).toNat = g.toNat / 256 * 256 + flo.toNat := by
  have hg := g.isLt
  calc (mergeFreqLow g flo).toNat
      = (mergeFreqLow (field g 8 3 ++ field g 0 8) flo).toNat := by rw [freqFields_append]
    _ = (field g 8 3).toNat * 256 + flo.toNat := by rw [mergeFreqLow_append, freqFields_toNat]
    _ = g.toNat / 256 * 256 + flo.toNat := by rw [field_toNat]; omega

theorem mergeFreqHigh_toNat (g : BitVec 11) (fhi : BitVec 3) :
    (mergeFreqHigh g fhi).toNat = fhi.toNat * 256 + g.toNat % 256 := by
  calc (mergeFreqHigh g fhi).toNat
      = (mergeFreqHigh (field g 8 3 ++ field g 0 8) fhi).toNat := by rw [freqFields_append]
    _ = fhi.toNat * 256 + (field g 0 8).toNat := by rw [mergeFreqHigh_append, freqFields_toNat]
    _ = fhi.toNat * 256 + g.toNat % 256 := by rw [field_toNat]; omega

/-- R78: `tone_set_freq_low`, its `gbfreq` as a number. -/
theorem toneSetFreqLow_eq (T : ToneChannel) (flo : Byte) :
    toneSetFreqLow T flo = { T with gbfreq := .ofNat 11 (T.gbfreq.toNat / 256 * 256 + flo.toNat) } := by
  rw [← mergeFreqLow_toNat, BitVec.ofNat_toNat, BitVec.setWidth_eq, toneSetFreqLow]

/-- R79: the trigger keeps the frequency that `tone_set_freq_high` has set. -/
@[simp] theorem toneSetFreqHigh_gbfreq (T : ToneChannel) (trigger single : Bool) (fhi : BitVec 3) :
    (toneSetFreqHigh T trigger single fhi).gbfreq = mergeFreqHigh T.gbfreq fhi := rfl

/-- Settles O11: a FLO or FHI write replaces one of the two fields of `gbfreq`, and all four writes complete. -/
theorem frequencyIsAssembledFromTwoWrites : Obligations.FrequencyIsAssembledFromTwoWrites := by
  refine ⟨fun flo s => ⟨?_, ?_⟩, fun trigger single x fhi s => ⟨_, _, exec_writes rfl s, ?_, exec_writes rfl s, ?_⟩⟩
  · rw [exec_writes rfl s, toneSetFreqLow_eq]
    rfl
  · rw [exec_writes rfl s, toneSetFreqLow_eq]
    rfl
  · exact mergeFreqHigh_toNat s.mixer.tone1.gbfreq fhi
  · exact mergeFreqHigh_toNat s.mixer.tone2.gbfreq fhi

end Sys2Proof.Laws
end

section
/-!
The family of spec/41_tone_channel.md: the phase counter and the duty step (R69), and the sub-clocks that the sequencer
feeds (R70, R89).
-/

namespace Sys2Proof.Laws

open Sys2Proof Sys2Proof.Machine

/-! The phase counter (R69). -/

/-- R69: a threshold that has dropped to the count or below it fires at the next tick. -/
theorem counterTick_one_fires {c : U32} {t : Nat} (h : t ≤ c.toNat) : (counterTick c t 1#32).1 = true := by
  rw [counterTick_one, if_pos (Nat.le_succ_of_le h)]

/-- R69: the duty step, as a number, is taken modulo 8. -/
theorem toneAdvance_dutyCount_toNat (T : ToneChannel) : (toneAdvance T).dutyCount.toNat =
    if (counterTick T.phaseCount (phasePeriod T.gbfreq) 1#32).1 then (T.dutyCount.toNat + 1) % 8
    else T.dutyCount.toNat := by
  rw [toneAdvance_dutyCount, apply_ite BitVec.toNat, BitVec.toNat_add]
  rfl

@[simp] theorem toneSetFreqLow_phaseCount (T : ToneChannel) (flo : Byte) :
    (toneSetFreqLow T flo).phaseCount = T.phaseCount := rfl

@[simp] theorem toneSetFreqHigh_phaseCount (T : ToneChannel) (trigger single : Bool) (fhi : BitVec 3) :
    (toneSetFreqHigh T trigger single fhi).phaseCount = T.phaseCount := rfl

/-- A completed write has left the block as `writes` says. -/
theorem exec_writes_mixer {i : Instr} {f : Mixer → Mixer} {s t : State} (hw : writes i = some f)
    (h : exec i s = .next t) : t.mixer = f s.mixer := by
  rw [exec_writes hw] at h
  rw [← Host.Outcome.next.inj h, answer_mixer]

/-- Settles O39: a running tick is `toneAdvance`, whose phase step is one `counter_tick`; each of the four `gbfreq`
writes sets one channel's frequency, which keeps the phase count, and leaves the other channel. -/
theorem phaseStepsTheDutyCount : Obligations.PhaseStepsTheDutyCount := by
  refine ⟨fun T hrun => ?_, fun i s t h hi => ?_⟩
  · rw [toneTick_running hrun]
    exact ⟨toneAdvance_phaseCount T, toneAdvance_dutyCount_toNat T, counterTick_one_fires⟩
  · obtain ⟨v, rfl | rfl⟩ | ⟨trigger, single, x, fhi, rfl | rfl⟩ := hi
    · rw [exec_writes_mixer rfl h]
      exact ⟨toneSetFreqLow_phaseCount _ v, rfl⟩
    · rw [exec_writes_mixer rfl h]
      exact ⟨rfl, toneSetFreqLow_phaseCount _ v⟩
    · rw [exec_writes_mixer rfl h]
      exact ⟨toneSetFreqHigh_phaseCount _ trigger single fhi, rfl⟩
    · rw [exec_writes_mixer rfl h]
      exact ⟨rfl, toneSetFreqHigh_phaseCount _ trigger single fhi⟩

/-! The sub-clocks (R70, R89). -/

/-- R62, R70: the sequencer of a good channel gives at most one pulse in a tick, and so does each divider it feeds. -/
theorem tonePulses_le_one {T : ToneChannel} (h : T.Good) :
    (dividerStep T.divSeq 1#32).1.toNat ≤ 1 ∧
    (dividerStep T.divSweep (dividerStep T.divSeq 1#32).1).1.toNat ≤ 1 ∧
    (dividerStep T.divLen (dividerStep T.divSeq 1#32).1).1.toNat ≤ 1 ∧
    (dividerStep T.divEnv (dividerStep T.divSeq 1#32).1).1.toNat ≤ 1 := by
  obtain ⟨⟨-, hseq, hsweep, hlen, henv⟩, -⟩ := h
  have hpulse : (dividerStep T.divSeq 1#32).1.toNat ≤ 1 := dividerStep_fired_le_one hseq (by decide) (by decide)
  exact ⟨hpulse, dividerStep_fired_le_one hsweep (by decide) hpulse,
    dividerStep_fired_le_one hlen (by decide) hpulse, dividerStep_fired_le_one henv (by decide) hpulse⟩

/-- Settles O40: the dividers after a running tick of either kind of channel, whose other steps leave them, and the
bound on a good tone channel's pulses. -/
theorem sequencerFeedsTheSubdividers : Obligations.SequencerFeedsTheSubdividers := by
  refine ⟨fun T hrun => ?_, fun N hrun => ?_⟩
  · rw [toneTick_running hrun]
    exact ⟨toneAdvance_divSeq T, toneAdvance_divSweep T, toneAdvance_divLen T, toneAdvance_divEnv T,
      tonePulses_le_one⟩
  · rw [noiseTick_running hrun]
    exact ⟨noiseAdvance_divSeq N, noiseAdvance_divLen N, noiseAdvance_divEnv N⟩

end Sys2Proof.Laws
end

section
/-!
The family of spec/43_mixer.md: the mask of the wave slot, which no tick reads into its result (R97).
-/

namespace Sys2Proof.Laws

open Sys2Proof Sys2Proof.Machine

/-- The block with another mask in its wave slot, `terminal[2]`. -/
def setWaveMask (m : Mixer) (mask : BitVec 2) : Mixer :=
  { m with terminal := { m.terminal with wave := mask } }

@[simp] theorem setWaveMask_tickable (m : Mixer) (mask : BitVec 2) :
    (setWaveMask m mask).tickable = m.tickable := rfl

/-- The channels do not read the masks. -/
theorem tickChannels_setWaveMask (m : Mixer) (mask : BitVec 2) : tickChannels (setWaveMask m mask) =
    ((tickChannels m).1, setWaveMask (tickChannels m).2 mask) := rfl

/-- R97: the wave channel is fixed at 0. -/
@[simp] theorem tickChannels_wave (m : Mixer) : (tickChannels m).1.wave = 0 := rfl

/-- A silent slot contributes 0 whether or not its mask lets it through. -/
@[simp] theorem gate_zero (enable : Bool) : gate enable 0 = 0 :=
  ite_self 0

/-- While the wave slot's sample is 0, a lane does not depend on the wave mask. -/
theorem routeLane_wave {x : SlotSamples} (hx : x.wave = 0) (t : Terminals) (mask : BitVec 2) (i : Nat) :
    routeLane { t with wave := mask } i x = routeLane t i x := by
  simp only [routeLane, hx, gate_zero]

theorem mixDown_setWaveMask {x : SlotSamples} (hx : x.wave = 0) (m : Mixer) (mask : BitVec 2) :
    mixDown (setWaveMask m mask) x = mixDown m x := by
  simp only [mixDown, setWaveMask, routeLane_wave hx]

/-- R97: a Mixer tick gives the same pair under any wave mask, and keeps the mask. -/
theorem mixerTick_setWaveMask (m : Mixer) (mask : BitVec 2) :
    mixerTick (setWaveMask m mask) = ((mixerTick m).1, setWaveMask (mixerTick m).2 mask) := by
  cases h : m.enabled
  · rw [mixerTick_off h, mixerTick_off (m := setWaveMask m mask) h]
  · rw [mixerTick_on h, mixerTick_on (m := setWaveMask m mask) h, tickChannels_setWaveMask,
      mixDown_setWaveMask (tickChannels_wave m)]

/-- Settles O31: TICK asks the same of the channels under any wave mask, and its Mixer tick gives the same pair. -/
theorem waveSlotIsSilent : Obligations.WaveSlotIsSilent := by
  intro s t mask h
  obtain ⟨htick, rfl⟩ := exec_tick_next h
  change exec .tick { s with mixer := setWaveMask s.mixer mask } = _
  rw [exec_tick, if_pos ((setWaveMask_tickable s.mixer mask).trans htick), mixerTick_setWaveMask]
  rfl

end Sys2Proof.Laws
end

section
/-!
The family of spec/30_encoding.md, decoder and encoder: fields of concatenated bits (R43, R45, R46), the decoder's
equation at each address (R52), and the mapped addresses (R27).
-/

namespace Sys2Proof.Laws

open Sys2Proof Sys2Proof.Machine

/-! Cutting a concatenation, and concatenating what was cut. -/

theorem field_append_low {a b : Nat} (x : BitVec a) (y : BitVec b) {lo n : Nat} (h : lo + n ≤ b) :
    field (x ++ y) lo n = field y lo n :=
  BitVec.extractLsb'_append_eq_of_add_le h

theorem field_append_high {a b : Nat} (x : BitVec a) (y : BitVec b) {lo n : Nat} (h : b ≤ lo) :
    field (x ++ y) lo n = field x (lo - b) n :=
  BitVec.extractLsb'_append_eq_of_le h

@[simp] theorem field_whole {n : Nat} (x : BitVec n) : field x 0 n = x :=
  BitVec.extractLsb'_eq_self

theorem field_append_field {m : Nat} (w : BitVec m) {hi lo k n : Nat} (h : hi = lo + n) :
    field w hi k ++ field w lo n = field w lo (k + n) :=
  BitVec.extractLsb'_append_extractLsb'_eq_extractLsb' h

theorem bit_append_low {a b : Nat} (x : BitVec a) (y : BitVec b) {i : Nat} (h : i < b) :
    bit (x ++ y) i = bit y i := by
  simp [bit, BitVec.getLsbD_append, h]

theorem bit_append_high {a b : Nat} (x : BitVec a) (y : BitVec b) {i : Nat} (h : b ≤ i) :
    bit (x ++ y) i = bit x (i - b) := by
  simp [bit, BitVec.getLsbD_append, Nat.not_lt.mpr h]

@[simp] theorem bit_flagBit (b : Bool) : bit (flagBit b) 0 = b := by
  cases b <;> rfl

theorem flagBit_bit {m : Nat} (w : BitVec m) (i : Nat) : flagBit (bit w i) = field w i 1 := by
  apply BitVec.eq_of_toNat_eq
  rw [field_toNat, bit_eq, flagBit, BitVec.toNat_ofBool]
  rcases Nat.mod_two_eq_zero_or_one (w.toNat / 2 ^ i) with h | h <;> simp [h]

theorem addr_fields (a : Addr) : (field a 4 12 ++ field a 0 4 : Addr) = a :=
  (field_append_field a (hi := 4) (lo := 0) (k := 12) (n := 4) rfl).trans (field_whole a)

/-! The decoder at each register's address (R52). -/

theorem waveram_mapped : ∀ index : BitVec 4, Addr.mapped (0xFF3#12 ++ index) = true := by decide

section equations
variable (v : Byte)

theorem decodeWord_nr10 : decodeWord (wrWord 0xFF10#16 v) =
    .nr10 (field v 7 1) (field v 4 3) (!bit v 3) (field v 0 3) := by simp [decodeWord]
theorem decodeWord_nr11 : decodeWord (wrWord 0xFF11#16 v) = .nr11 (field v 6 2) (field v 0 6) := by
  simp [decodeWord]
theorem decodeWord_nr12 : decodeWord (wrWord 0xFF12#16 v) = .nr12 (field v 4 4) (bit v 3) (field v 0 3) := by
  simp [decodeWord]
theorem decodeWord_nr13 : decodeWord (wrWord 0xFF13#16 v) = .nr13 v := by
  simp [decodeWord]
theorem decodeWord_nr14 : decodeWord (wrWord 0xFF14#16 v) =
    .nr14 (bit v 7) (bit v 6) (field v 3 3) (field v 0 3) := by simp [decodeWord]
theorem decodeWord_nr21 : decodeWord (wrWord 0xFF16#16 v) = .nr21 (field v 6 2) (field v 0 6) := by
  simp [decodeWord]
theorem decodeWord_nr22 : decodeWord (wrWord 0xFF17#16 v) = .nr22 (field v 4 4) (bit v 3) (field v 0 3) := by
  simp [decodeWord]
theorem decodeWord_nr23 : decodeWord (wrWord 0xFF18#16 v) = .nr23 v := by
  simp [decodeWord]
theorem decodeWord_nr24 : decodeWord (wrWord 0xFF19#16 v) =
    .nr24 (bit v 7) (bit v 6) (field v 3 3) (field v 0 3) := by simp [decodeWord]
theorem decodeWord_nr30 : decodeWord (wrWord 0xFF1A#16 v) = .nr30 v := by
  simp [decodeWord]
theorem decodeWord_nr31 : decodeWord (wrWord 0xFF1B#16 v) = .nr31 v := by
  simp [decodeWord]
theorem decodeWord_nr32 : decodeWord (wrWord 0xFF1C#16 v) = .nr32 v := by
  simp [decodeWord]
theorem decodeWord_nr33 : decodeWord (wrWord 0xFF1D#16 v) = .nr33 v := by
  simp [decodeWord]
theorem decodeWord_nr34 : decodeWord (wrWord 0xFF1E#16 v) = .nr34 v := by
  simp [decodeWord]
theorem decodeWord_nr41 : decodeWord (wrWord 0xFF20#16 v) = .nr41 (field v 6 2) (field v 0 6) := by
  simp [decodeWord]
theorem decodeWord_nr42 : decodeWord (wrWord 0xFF21#16 v) = .nr42 (field v 4 4) (bit v 3) (field v 0 3) := by
  simp [decodeWord]
theorem decodeWord_nr43 : decodeWord (wrWord 0xFF22#16 v) = .nr43 (field v 4 4) (bit v 3) (field v 0 3) := by
  simp [decodeWord]
theorem decodeWord_nr44 : decodeWord (wrWord 0xFF23#16 v) = .nr44 (bit v 7) (bit v 6) (field v 0 6) := by
  simp [decodeWord]
theorem decodeWord_nr50 : decodeWord (wrWord 0xFF24#16 v) =
    .nr50 (field v 7 1) (field v 4 3) (field v 3 1) (field v 0 3) := by simp [decodeWord]
theorem decodeWord_nr51 : decodeWord (wrWord 0xFF25#16 v) = .nr51 (field v 4 4) (field v 0 4) := by
  simp [decodeWord]
theorem decodeWord_nr52 : decodeWord (wrWord 0xFF26#16 v) = .nr52 (bit v 7) (field v 0 7) := by
  simp [decodeWord]

/-- A wave RAM address is the one whose high twelve bits are 0xFF3, and no register has such an address. -/
theorem decodeWord_waveram (index : BitVec 4) :
    decodeWord (wrWord (0xFF3#12 ++ index) v) = .waveram index v := by
  have hhigh : field (0xFF3#12 ++ index : Addr) 4 12 = 0xFF3#12 := by
    rw [field_append_high _ _ (by decide), field_whole]
  have hlow : field (0xFF3#12 ++ index : Addr) 0 4 = index := by
    rw [field_append_low _ _ (by decide), field_whole]
  have hne (a : Addr) (ha : field a 4 12 ≠ 0xFF3#12) : (0xFF3#12 ++ index : Addr) ≠ a :=
    fun he => ha (he ▸ hhigh)
  simp (disch := decide) only [decodeWord, field_wrWord_addr, field_wrWord_value, hne, hhigh, hlow, if_true, if_false]

/-- R127: outside the mapped set the write is unmapped, because every address the decoder asks for is mapped. -/
theorem decodeWord_unmapped {a : Addr} (h : Addr.mapped a = false) : decodeWord (wrWord a v) = .unmapped a v := by
  have hne (b : Addr) (hb : Addr.mapped b = true) : a ≠ b := fun he => by simp [← he, h] at hb
  have hwave : field a 4 12 ≠ 0xFF3#12 := fun he => hne _ (waveram_mapped (field a 0 4)) (he ▸ (addr_fields a).symm)
  simp (disch := decide) only [decodeWord, field_wrWord_addr, field_wrWord_value, hne, hwave, if_false]

end equations

/-! Decoding an encoded operation. -/

/-- Settles O1: at the operation's address the decoder cuts the byte where the encoder joined it, and a call's name and
arguments select it again. -/
theorem decodeInvertsEncode : Obligations.DecodeInvertsEncode := by
  intro i hwf
  cases i with
  | tick | init | next => rfl
  | setScale target => cases target <;> rfl
  | ctick c | cnext c => cases c <;> rfl
  | nr13 flo => exact congrArg Except.ok (decodeWord_nr13 flo)
  | nr23 flo => exact congrArg Except.ok (decodeWord_nr23 flo)
  | nr30 v => exact congrArg Except.ok (decodeWord_nr30 v)
  | nr31 v => exact congrArg Except.ok (decodeWord_nr31 v)
  | nr32 v => exact congrArg Except.ok (decodeWord_nr32 v)
  | nr33 v => exact congrArg Except.ok (decodeWord_nr33 v)
  | nr34 v => exact congrArg Except.ok (decodeWord_nr34 v)
  | waveram index v => exact congrArg Except.ok (decodeWord_waveram v index)
  | unmapped a v => exact congrArg Except.ok (decodeWord_unmapped v (by simpa [Instr.wellFormed] using hwf))
  | _ =>
    simp (disch := decide) only [decode, decodeCall, encode, decodeWord_nr10, decodeWord_nr11, decodeWord_nr12,
      decodeWord_nr14, decodeWord_nr21, decodeWord_nr22, decodeWord_nr24, decodeWord_nr41, decodeWord_nr42,
      decodeWord_nr43, decodeWord_nr44, decodeWord_nr50, decodeWord_nr51, decodeWord_nr52, field_append_low,
      field_append_high, field_whole, bit_append_low, bit_append_high, bit_flagBit, Nat.reduceSub, Bool.not_not]

end Sys2Proof.Laws
end

section
/-!
The family of spec/30_encoding.md, words: the mapped addresses one by one (R22, R27), the encoding of a decoded word
(R43, R52), the rows of the opcode table, and the fields of a byte as numbers (R45-R48).
-/

namespace Sys2Proof.Laws

open Sys2Proof Sys2Proof.Machine

/-! Every word is a write to a named register, to wave RAM, or to an unmapped address. -/

/-- R27: a mapped address is that of a named register or lies in wave RAM. -/
theorem mapped_cases {a : Addr} (h : Addr.mapped a = true) :
    a ∈ registerNames.map Prod.snd ∨ ∃ index : BitVec 4, a = 0xFF3#12 ++ index := by
  have h1 : ∀ lo : BitVec 4, Addr.mapped (0xFF1#12 ++ lo) = true → 0xFF1#12 ++ lo ∈ registerNames.map Prod.snd := by
    decide
  have h2 : ∀ lo : BitVec 4, Addr.mapped (0xFF2#12 ++ lo) = true → 0xFF2#12 ++ lo ∈ registerNames.map Prod.snd := by
    decide
  have hpage : field a 4 12 = 0xFF1#12 ∨ field a 4 12 = 0xFF2#12 ∨ field a 4 12 = 0xFF3#12 := by
    simp only [← BitVec.toNat_inj, field_toNat, BitVec.toNat_ofNat]
    simp only [Addr.mapped, Bool.or_eq_true, Bool.and_eq_true, decide_eq_true_eq] at h
    omega
  rw [← addr_fields a] at h ⊢
  rcases hpage with hp | hp | hp <;> rw [hp] at h ⊢
  · exact .inl (h1 _ h)
  · exact .inl (h2 _ h)
  · exact .inr ⟨_, rfl⟩

/-- What holds of every write to a named register, to wave RAM and to an unmapped address holds of every word. -/
theorem word_cases {P : WrWord → Prop} (hreg : ∀ a ∈ registerNames.map Prod.snd, ∀ v, P (wrWord a v))
    (hwave : ∀ (index : BitVec 4) v, P (wrWord (0xFF3#12 ++ index) v))
    (hunmapped : ∀ a v, Addr.mapped a = false → P (wrWord a v)) (w : WrWord) : P w := by
  rw [← wrWord_fields w]
  cases h : Addr.mapped (field w 8 16)
  · exact hunmapped _ _ h
  · rcases mapped_cases h with hmem | ⟨index, he⟩
    · exact hreg _ hmem _
    · rw [he]; exact hwave _ _

/-- Settles O2: at each address the encoder joins the fields that the decoder cut from the byte. -/
theorem encodeInvertsDecodeOnWords : Obligations.EncodeInvertsDecodeOnWords := by
  refine word_cases ?_ (fun index v => ?_) fun a v h => ?_
  · simp only [registerNames, List.map_cons, List.map_nil, List.cons_append, List.nil_append, List.forall_mem_cons,
      BitVec.ofNat_eq_ofNat]
    simp (disch := decide) only [decodeWord_nr10, decodeWord_nr11, decodeWord_nr12, decodeWord_nr13, decodeWord_nr14,
      decodeWord_nr21, decodeWord_nr22, decodeWord_nr23, decodeWord_nr24, decodeWord_nr30, decodeWord_nr31,
      decodeWord_nr32, decodeWord_nr33, decodeWord_nr34, decodeWord_nr41, decodeWord_nr42, decodeWord_nr43,
      decodeWord_nr44, decodeWord_nr50, decodeWord_nr51, decodeWord_nr52, encode, Bool.not_not, flagBit_bit,
      field_append_field]
    simp [Instr.wellFormed]
  · rw [decodeWord_waveram]; exact ⟨rfl, rfl⟩
  · rw [decodeWord_unmapped v h]; exact ⟨by simp [Instr.wellFormed, h], rfl⟩

/-! The rows of the opcode table. -/

theorem encodesInItsRow (i : Instr) : EncodesInItsRow.Statement i := by
  cases i with
  | nr10 => apply EncodesInItsRow.nr10
  | nr11 => apply EncodesInItsRow.nr11
  | nr12 => apply EncodesInItsRow.nr12
  | nr13 => apply EncodesInItsRow.nr13
  | nr14 => apply EncodesInItsRow.nr14
  | nr21 => apply EncodesInItsRow.nr21
  | nr22 => apply EncodesInItsRow.nr22
  | nr23 => apply EncodesInItsRow.nr23
  | nr24 => apply EncodesInItsRow.nr24
  | nr30 => apply EncodesInItsRow.nr30
  | nr31 => apply EncodesInItsRow.nr31
  | nr32 => apply EncodesInItsRow.nr32
  | nr33 => apply EncodesInItsRow.nr33
  | nr34 => apply EncodesInItsRow.nr34
  | waveram => apply EncodesInItsRow.waveram
  | nr41 => apply EncodesInItsRow.nr41
  | nr42 => apply EncodesInItsRow.nr42
  | nr43 => apply EncodesInItsRow.nr43
  | nr44 => apply EncodesInItsRow.nr44
  | nr50 => apply EncodesInItsRow.nr50
  | nr51 => apply EncodesInItsRow.nr51
  | nr52 => apply EncodesInItsRow.nr52
  | unmapped => apply EncodesInItsRow.unmapped
  | tick => exact EncodesInItsRow.tick
  | next => apply EncodesInItsRow.next
  | init => exact EncodesInItsRow.init
  | setScale => apply EncodesInItsRow.setScale
  | ctick => apply EncodesInItsRow.ctick
  | cnext => apply EncodesInItsRow.cnext

/-- A word hits the row of its own decoding. -/
theorem decodeWord_row (w : WrWord) : ∃ r ∈ opcodeRows, r.mnemonic = (decodeWord w).mnemonic ∧ r.hits w = true := by
  obtain ⟨hwf, henc⟩ := encodeInvertsDecodeOnWords w
  have h := encodesInItsRow (decodeWord w) hwf
  rwa [henc] at h

/-- The last row, whose mask is empty. -/
def unmappedRow : OpcodeRow := ⟨"UNMAPPED", 0, 0⟩

theorem opcodeRows_eq : opcodeRows = opcodeRows.dropLast ++ [unmappedRow] := rfl

theorem hits_unmappedRow (w : WrWord) : unmappedRow.hits w = true := by
  simp [OpcodeRow.hits, unmappedRow]

/-- Two rows before the last that one word hits are the same row: `opcodeRows_disjoint` for one word. -/
theorem hits_unique {w : WrWord} {r q : OpcodeRow} (hr : r ∈ opcodeRows.dropLast) (hq : q ∈ opcodeRows.dropLast)
    (hrw : r.hits w = true) (hqw : q.hits w = true) : r = q := by
  have hsymm : Std.Symm fun r q : OpcodeRow => (r.pattern ^^^ q.pattern) &&& r.mask &&& q.mask ≠ 0#24 :=
    ⟨fun a b h => by
      rwa [BitVec.xor_comm, BitVec.and_assoc, BitVec.and_comm b.mask, ← BitVec.and_assoc]⟩
  by_contra hne
  refine opcodeRows_disjoint.forall hr hq hne ?_
  simp only [OpcodeRow.hits, beq_iff_eq] at hrw hqw
  rw [← hrw, ← hqw]
  have hbit : ∀ x y z : Bool, ((x && y ^^ x && z) && y && z) = false := by decide
  ext i hi
  simpa only [BitVec.getElem_and, BitVec.getElem_xor, BitVec.getElem_zero] using hbit w[i] r.mask[i] q.mask[i]

/-- A word that hits a row before the last has a mapped address: the row fixes all sixteen address bits, or the twelve
of wave RAM. -/
theorem hits_mapped {r : OpcodeRow} (hr : r ∈ opcodeRows.dropLast) {a : Addr} {v : Byte}
    (h : r.hits (wrWord a v) = true) : Addr.mapped a = true := by
  have hshape : ∀ r ∈ opcodeRows.dropLast,
      (r.mask = wrWord 0xFFFF#16 0#8 ∧ Addr.mapped (field r.pattern 8 16) = true) ∨
      (r.mask = wrWord (0xFFF#12 ++ 0#4) 0#8 ∧ field (field r.pattern 8 16) 4 12 = 0xFF3#12) := by decide
  simp only [OpcodeRow.hits, beq_iff_eq] at h
  rcases hshape r hr with ⟨hmask, hp⟩ | ⟨hmask, hp⟩ <;>
    rw [← h, hmask, wrWord_and, field_wrWord_addr] at hp
  · have hall : a &&& 0xFFFF#16 = a := BitVec.and_allOnes
    rwa [hall] at hp
  · have hall : field a 4 12 &&& 0xFFF#12 = field a 4 12 := BitVec.and_allOnes
    have hpage : field a 4 12 = 0xFF3#12 := by
      rw [← hp, ← hall]
      conv_rhs => rw [← addr_fields a, BitVec.and_append, field_append_high _ _ (by decide), field_whole]
    rw [← addr_fields a, hpage]
    exact waveram_mapped _

/-- Only an unmapped address decodes to UNMAPPED (R127). -/
theorem decodeWord_mnemonic_unmapped {a : Addr} {v : Byte} (h : (decodeWord (wrWord a v)).mnemonic = "UNMAPPED") :
    Addr.mapped a = false := by
  obtain ⟨hwf, henc⟩ := encodeInvertsDecodeOnWords (wrWord a v)
  cases hi : decodeWord (wrWord a v) with
  | unmapped b u =>
    rw [hi] at hwf henc
    have hb : b = a := by
      rw [← field_wrWord_addr b u, Call.wr.inj henc, field_wrWord_addr]
    simpa [Instr.wellFormed, hb] using hwf
  | _ => rw [hi] at h; exact absurd h (by simp [Instr.mnemonic])

/-- Settles O3: the word hits the row of its decoding, no two rows but the last hit one word, and an unmapped word hits
only the last. -/
theorem decoderTakesTheFirstMatchingRow : Obligations.DecoderTakesTheFirstMatchingRow := by
  intro w
  obtain ⟨r, hr, hm, hrw⟩ := decodeWord_row w
  rw [opcodeRows_eq, List.mem_append, List.mem_singleton] at hr
  rw [← hm, opcodeRows_eq, List.find?_append]
  cases hfind : opcodeRows.dropLast.find? fun r => r.hits w with
  | none =>
    have hlast : r = unmappedRow := hr.resolve_left fun hmem => List.find?_eq_none.mp hfind r hmem hrw
    simp [hits_unmappedRow, hlast]
  | some q =>
    have hq : q ∈ opcodeRows.dropLast := List.mem_of_find?_eq_some hfind
    have hqw : q.hits w = true := List.find?_some (p := fun r : OpcodeRow => r.hits w) hfind
    rcases hr with hr | rfl
    · rw [hits_unique hq hr hqw hrw]; rfl
    · rw [← wrWord_fields w] at hm hqw
      have := hits_mapped hq hqw
      rw [decodeWord_mnemonic_unmapped hm.symm] at this
      cases this

/-! The fields of a byte as numbers (R45-R48). -/

theorem field_eq_ofNat {m : Nat} (w : BitVec m) (lo n : Nat) : field w lo n = .ofNat n (w.toNat / 2 ^ lo) := by
  apply BitVec.eq_of_toNat_eq
  rw [field_toNat, BitVec.toNat_ofNat]

/-- Settles O4: at each address the decoder's fields, each a quotient of the byte by a power of two. -/
theorem registerFieldsAreCutFromTheByte : Obligations.RegisterFieldsAreCutFromTheByte := by
  intro v
  have hinv : (!(v.toNat / 8 % 2 == 1)) = (v.toNat / 8 % 2 == 0) := by
    rcases Nat.mod_two_eq_zero_or_one (v.toNat / 8) with h | h <;> rw [h] <;> rfl
  have hwr (a : Addr) : a ++ v = wrWord a v := rfl
  simp only [hwr, decodeWord_nr10, decodeWord_nr11, decodeWord_nr12, decodeWord_nr13, decodeWord_nr14,
    decodeWord_nr21, decodeWord_nr22, decodeWord_nr23, decodeWord_nr24, decodeWord_nr41, decodeWord_nr42,
    decodeWord_nr43, decodeWord_nr44, decodeWord_nr50, decodeWord_nr51, decodeWord_nr52, field_eq_ofNat, bit_eq,
    Nat.reducePow, Nat.div_one, hinv, and_self]

/-- Settles O5: seven terms, decoded. -/
theorem specExampleWordsDecode : Obligations.SpecExampleWordsDecode := by
  unfold Obligations.SpecExampleWordsDecode
  decide

/-- Settles O16: the fields of NR50's byte, and the write of both volumes. -/
theorem masterVolumeWriteSetsBothVolumes : Obligations.MasterVolumeWriteSetsBothVolumes := by
  refine ⟨fun v => ⟨field v 7 1, field v 3 1, ?_⟩, fun x7 x3 right left s => by rw [exec_writes rfl]; rfl⟩
  have h := decodeWord_nr50 v
  rwa [field_eq_ofNat v 4, field_eq_ofNat v 0, Nat.pow_zero, Nat.div_one] at h

end Sys2Proof.Laws
end

section
/-!
The family of spec/44_register_writes.md: the whole next state of each write (R74-R79, R90-R92, R100-R102), and what
holds of every write word (R34, R53, R104).
-/

namespace Sys2Proof.Laws

open Sys2Proof Sys2Proof.Machine

/-! The registers one by one. -/

/-- Settles O8: NR10 completes as `tone_set_sweep` of channel 1. -/
theorem nr10SetsTheSweep : Obligations.Nr10SetsTheSweep := by
  intro x time addition shift s
  rw [exec_writes rfl]
  rfl

/-- Settles O9: both complete as `tone_set_length_duty` of their channel. -/
theorem lengthDutyWritesSetLengthAndDuty : Obligations.LengthDutyWritesSetLengthAndDuty := by
  intro duty length s
  rw [exec_writes rfl, exec_writes rfl]
  exact ⟨rfl, rfl⟩

/-- Settles O10: all three complete as `set_volume_envelope` of their channel's envelope unit. -/
theorem envelopeWritesLoadTheAmplitude : Obligations.EnvelopeWritesLoadTheAmplitude := by
  intro initial increase n s load
  rw [exec_writes rfl, exec_writes rfl, exec_writes rfl]
  exact ⟨rfl, rfl, rfl⟩

/-- R74: a trigger enables a sweep whose time is not 0, and disables none. -/
theorem sweepEnabledAfterTrigger_eq (trigger : Bool) (time : BitVec 3) (enabled : Bool) :
    sweepEnabledAfterTrigger trigger time enabled = if trigger = true ∧ time ≠ 0#3 then true else enabled := by
  cases trigger
  · simp [sweepEnabledAfterTrigger]
  · by_cases h : time = 0#3 <;> simp [sweepEnabledAfterTrigger, h]

/-- R74, R79: `tone_set_freq_high` field by field, its `gbfreq` as a number. -/
theorem toneSetFreqHigh_eq (T : ToneChannel) (trigger single : Bool) (fhi : BitVec 3) :
    toneSetFreqHigh T trigger single fhi = { T with
      running := if trigger then true else T.running
      sweep := { T.sweep with
        enabled := if trigger = true ∧ T.sweep.time ≠ 0#3 then true else T.sweep.enabled
        count := if trigger then 0 else T.sweep.count }
      len := ⟨if trigger then 0 else T.len.count, T.len.length, !single⟩
      env := { T.env with count := if trigger then 0 else T.env.count }
      gbfreq := .ofNat 11 (fhi.toNat * 256 + T.gbfreq.toNat % 256) } := by
  rw [← mergeFreqHigh_toNat, BitVec.ofNat_toNat, BitVec.setWidth_eq, ← sweepEnabledAfterTrigger_eq]
  cases trigger <;> rfl

/-- Settles O12: both complete as `tone_set_freq_high` of their channel. -/
theorem frequencyHighWritesTrigger : Obligations.FrequencyHighWritesTrigger := by
  intro trigger single x fhi s write
  rw [exec_writes rfl, exec_writes rfl, toneSetFreqHigh_eq, toneSetFreqHigh_eq]
  exact ⟨rfl, rfl⟩

/-- Settles O13: the seven writes complete as the identity on the block. -/
theorem waveAndUnmappedWritesChangeNothing : Obligations.WaveAndUnmappedWritesChangeNothing := by
  intro v index a s
  have hid {i : Instr} (hi : writes i = some id) : exec i s = .next { s with result := .none } := exec_writes hi s
  exact ⟨hid rfl, hid rfl, hid rfl, hid rfl, hid rfl, hid rfl, hid rfl⟩

/-- Settles O14: the two complete as `noise_set_length` and `noise_set_poly`. -/
theorem noiseSettingWritesKeepTheCounters : Obligations.NoiseSettingWritesKeepTheCounters := by
  intro x length shiftClock smallStep prescale s
  rw [exec_writes rfl, exec_writes rfl]
  exact ⟨rfl, rfl⟩

/-- Settles O15: NR44 completes as `noise_trigger`, with the trigger bit and without it. -/
theorem noiseTriggerReseedsTheLfsr : Obligations.NoiseTriggerReseedsTheLfsr := by
  intro single x s
  rw [exec_writes rfl, exec_writes rfl]
  exact ⟨rfl, rfl⟩

/-- R50, R101: a slot's mask as a number, its left bit above its right one. -/
theorem terminalMask_eq (rightEn leftEn : BitVec 4) (k : Nat) : terminalMask (bit leftEn k) (bit rightEn k) =
    .ofNat 2 (leftEn.toNat / 2 ^ k % 2 * 2 + rightEn.toNat / 2 ^ k % 2) := by
  rw [bit_eq, bit_eq]
  rcases Nat.mod_two_eq_zero_or_one (leftEn.toNat / 2 ^ k) with hl | hl <;>
    rcases Nat.mod_two_eq_zero_or_one (rightEn.toNat / 2 ^ k) with hr | hr <;> rw [hl, hr] <;> rfl

/-- Settles O17: NR51 completes with the four masks of `routeMasks`. -/
theorem routingWriteReplacesAllMasks : Obligations.RoutingWriteReplacesAllMasks := by
  intro rightEn leftEn s mask
  have hmasks : routeMasks rightEn leftEn = ⟨mask 0, mask 1, mask 2, mask 3⟩ := by
    simp only [routeMasks, terminalMask_eq, mask]
  rw [exec_writes rfl, mixerSetRouting, hmasks]
  rfl

/-- Settles O18: NR52 completes as `mixer_set_power`. -/
theorem powerWriteSetsOnlyTheFlag : Obligations.PowerWriteSetsOnlyTheFlag := by
  intro on x s
  rw [exec_writes rfl]
  rfl

/-- R148: the block as INIT leaves it is the block after reset. -/
theorem mixerInit_eq_reset : mixerInit = Mixer.reset := by
  decide

/-- Settles O22: INIT completes with `mixerInit`, whatever the block held. -/
theorem initResetsTheBlock : Obligations.InitResetsTheBlock := by
  intro s
  rw [exec_writes rfl, mixerInit_eq_reset]
  rfl

/-- Settles O23: SET_SCALE completes with the target's scale replaced. -/
theorem setScaleSetsTheTarget : Obligations.SetScaleSetsTheTarget := by
  intro v s
  rw [exec_writes rfl, exec_writes rfl, exec_writes rfl]
  exact ⟨rfl, rfl, rfl⟩

/-! Every write word. -/

/-- What a word encodes is a write. -/
theorem writes_of_encode {i : Instr} {w : WrWord} (h : encode i = .wr w) : ∃ f, writes i = some f := by
  cases i with
  | tick | next | init | setScale | ctick | cnext => cases h
  | _ => exact ⟨_, rfl⟩

theorem decodeWord_writes (w : WrWord) : ∃ f, writes (decodeWord w) = some f :=
  writes_of_encode (encodeInvertsDecodeOnWords w).2

/-- Settles O19: a decoded word is a write, and writes complete in every state. -/
theorem everyWriteWordCompletes : Obligations.EveryWriteWordCompletes := by
  intro w s
  obtain ⟨f, hf⟩ := decodeWord_writes w
  exact ⟨_, exec_writes hf s, rfl, rfl⟩

theorem mergeFreqLow_idem (g : BitVec 11) (flo : Byte) :
    mergeFreqLow (mergeFreqLow g flo) flo = mergeFreqLow g flo := by
  rw [← freqFields_append g, mergeFreqLow_append, mergeFreqLow_append]

theorem mergeFreqHigh_idem (g : BitVec 11) (fhi : BitVec 3) :
    mergeFreqHigh (mergeFreqHigh g fhi) fhi = mergeFreqHigh g fhi := by
  rw [← freqFields_append g, mergeFreqHigh_append, mergeFreqHigh_append]

theorem toneSetFreqLow_idem (T : ToneChannel) (flo : Byte) :
    toneSetFreqLow (toneSetFreqLow T flo) flo = toneSetFreqLow T flo := by
  simp only [toneSetFreqLow, mergeFreqLow_idem]

/-- A second trigger finds the flags set and the counts zero. -/
theorem toneSetFreqHigh_idem (T : ToneChannel) (trigger single : Bool) (fhi : BitVec 3) :
    toneSetFreqHigh (toneSetFreqHigh T trigger single fhi) trigger single fhi =
      toneSetFreqHigh T trigger single fhi := by
  cases trigger <;>
    simp [toneSetFreqHigh, toneTrigger, mergeFreqHigh_idem, runningAfterTrigger, sweepEnabledAfterTrigger]

/-- R34: what a write sets does not depend on what it set before. -/
theorem writes_idem {i : Instr} {f : Mixer → Mixer} (hf : writes i = some f) (m : Mixer) : f (f m) = f m := by
  cases i with
  | nr13 | nr23 => cases hf; simp only [toneSetFreqLow_idem]
  | nr14 | nr24 => cases hf; simp only [toneSetFreqHigh_idem]
  | nr44 trigger => cases hf; cases trigger <;> rfl
  | setScale target => cases hf; cases target <;> rfl
  | tick | next | ctick | cnext => cases hf
  | _ => cases hf; rfl

/-- Settles O20: the state after a write is the one before it with the write's block and no result. -/
theorem writingTwiceIsWritingOnce : Obligations.WritingTwiceIsWritingOnce := by
  intro w s t h
  obtain ⟨f, hf⟩ := decodeWord_writes w
  rw [exec_writes hf] at h ⊢
  cases h
  rw [answer_mixer, writes_idem hf, answer_answer]

/-- R104: a register write other than NR52 neither reads nor writes the power flag. -/
theorem writes_power {i : Instr} {w : WrWord} {f : Mixer → Mixer} (hf : writes i = some f) (hw : encode i = .wr w)
    (hi : ∀ on x, i ≠ .nr52 on x) (b : Bool) (m : Mixer) :
    f { m with enabled := b } = { f m with enabled := b } := by
  cases i with
  | nr52 on x => exact absurd rfl (hi on x)
  | tick | next | init | setScale | ctick | cnext => cases hw
  | _ => cases hf; rfl

/-- Settles O21: the flag passes through the write. -/
theorem writesIgnoreThePowerFlag : Obligations.WritesIgnoreThePowerFlag := by
  intro w b s t hi h
  obtain ⟨f, hf⟩ := decodeWord_writes w
  rw [exec_writes hf] at h ⊢
  cases h
  rw [writes_power hf (encodeInvertsDecodeOnWords w).2 hi]
  rfl

end Sys2Proof.Laws
end

section
/-!
The family of the step: the head of the stream decoded and applied (R37, R42), and the terms that are no
operation (R137).
-/

namespace Sys2Proof.Laws

open Sys2Proof Sys2Proof.Machine

/-- Settles O6: the step on a stream whose head decodes, and on an empty one. -/
theorem stepRunsTheDecodedOperation : Obligations.StepRunsTheDecodedOperation :=
  ⟨fun _ _ _ _ hs hd => step_ok hs hd, fun _ hs => step_nil hs⟩

theorem channelOf_ne_mixer {c : Component} {d : Channel} (h : channelOf c = some d) : c ≠ .mixer := by
  rintro rfl
  cases h

theorem scaleTargetOf_ne_noise {c : Component} {d : ScaleTarget} (h : scaleTargetOf c = some d) : c ≠ .noise := by
  rintro rfl
  cases h

/-- R42, R44: what a call that decodes looks like. -/
theorem decodeHost_some {name : String} {args : List Arg} {i : Instr} (h : decodeHost name args = some i) :
    (name = "TICK" ∧ args = []) ∨ (name = "INIT" ∧ args = []) ∨
    (name = "NEXT" ∧ ∃ r, args = [.u32 r]) ∨
    (name = "SET_SCALE" ∧ ∃ c v, c ≠ Component.noise ∧ args = [.component c, .i32 v]) ∨
    (name = "CTICK" ∧ ∃ c, c ≠ Component.mixer ∧ args = [.component c]) ∨
    (name = "CNEXT" ∧ ∃ c r, c ≠ Component.mixer ∧ args = [.component c, .u32 r]) := by
  unfold decodeHost at h
  split at h
  · split at h
    · exact .inl ⟨‹_›, rfl⟩
    · split at h
      · exact .inr (.inl ⟨‹_›, rfl⟩)
      · cases h
  · split at h
    · exact .inr (.inr (.inl ⟨‹_›, _, rfl⟩))
    · cases h
  · split at h
    · obtain ⟨d, hd, -⟩ := Option.map_eq_some_iff.mp h
      exact .inr (.inr (.inr (.inr (.inl ⟨‹_›, _, channelOf_ne_mixer hd, rfl⟩))))
    · cases h
  · split at h
    · obtain ⟨d, hd, -⟩ := Option.map_eq_some_iff.mp h
      exact .inr (.inr (.inr (.inr (.inr ⟨‹_›, _, _, channelOf_ne_mixer hd, rfl⟩))))
    · cases h
  · split at h
    · obtain ⟨d, hd, -⟩ := Option.map_eq_some_iff.mp h
      exact .inr (.inr (.inr (.inl ⟨‹_›, _, _, scaleTargetOf_ne_noise hd, rfl⟩)))
    · cases h
  · cases h

/-- Settles O7: an overlap and a call that does not decode are the two decode errors. -/
theorem termsThatAreNoOperationAreRefused : Obligations.TermsThatAreNoOperationAreRefused := by
  refine ⟨fun s a b rest hs => step_error hs rfl, fun s name args rest hs hno => ?_⟩
  have hnone : decodeHost name args = none := by
    cases hd : decodeHost name args with
    | none => rfl
    | some i => exact absurd (decodeHost_some hd) hno
  refine step_error (e := .unknownOperation) hs ?_
  rw [decode, decodeCall, hnone]

end Sys2Proof.Laws
end

section
/-!
The family of spec/40_clock_divider.md: the divider and the threshold counter (R57-R61), and both fed from aligned
starts (R62, R63).
-/

namespace Sys2Proof.Laws

open Sys2Proof Sys2Proof.Machine

/-! The divider (R57-R59). -/

/-- Settles O33: `dividerInit_shift`, and the quotient and remainder of a step. -/
theorem dividerDividesByThePowerOfTwo : Obligations.DividerDividesByThePowerOfTwo :=
  ⟨fun inExp outExp => ⟨rfl, dividerInit_shift inExp outExp⟩,
    fun d n => ⟨dividerStep_fired d n, dividerStep_remainder d n, dividerStep_shift d n⟩⟩

/-- A divider stepped with the pulses so far added up. -/
def addPulses (p : Nat × ClockDivider) (n : U32) : Nat × ClockDivider :=
  (p.1 + (dividerStep p.2 n).1.toNat, (dividerStep p.2 n).2)

/-- Dividing in two goes: the first quotient, then the first remainder with the rest. -/
theorem div_add_mod_add_div {x y m : Nat} (hm : 0 < m) : x / m + (x % m + y) / m = (x + y) / m := by
  conv_rhs => rw [← Nat.div_add_mod x m, Nat.add_assoc, Nat.mul_add_div hm]

/-- R59 with any pulses before: what the steps take out of the divider is what went in. -/
theorem foldl_addPulses (ns : List U32) (p : Nat) (d : ClockDivider) (hd : d.remainder.toNat < 2 ^ d.shift.toNat)
    (hns : ∀ n ∈ ns, n.toNat + 2 ^ d.shift.toNat ≤ 2 ^ 32) :
    (ns.foldl addPulses (p, d)).1 = p + (d.remainder.toNat + (ns.map BitVec.toNat).sum) / 2 ^ d.shift.toNat ∧
    (ns.foldl addPulses (p, d)).2.remainder.toNat =
      (d.remainder.toNat + (ns.map BitVec.toNat).sum) % 2 ^ d.shift.toNat := by
  have hpos := Nat.two_pow_pos d.shift.toNat
  induction ns generalizing p d with
  | nil => exact ⟨by simp [Nat.div_eq_of_lt hd], by simp [Nat.mod_eq_of_lt hd]⟩
  | cons n ns ih =>
    rw [List.forall_mem_cons] at hns
    have hwrap : (d.remainder.toNat + n.toNat) % 2 ^ 32 = d.remainder.toNat + n.toNat :=
      Nat.mod_eq_of_lt (by omega)
    have hfired := dividerStep_fired d n
    have hrem := dividerStep_remainder d n
    rw [hwrap] at hfired hrem
    obtain ⟨hsum, hlast⟩ := ih (p + (dividerStep d n).1.toNat) (dividerStep d n).2
      (by rw [dividerStep_shift, hrem]; exact Nat.mod_lt _ hpos) hns.2 hpos
    rw [dividerStep_shift, hrem] at hsum hlast
    rw [List.foldl_cons, List.map_cons, List.sum_cons, ← Nat.add_assoc]
    refine ⟨hsum.trans ?_, hlast.trans (Nat.mod_add_mod ..)⟩
    rw [hfired, Nat.add_assoc, div_add_mod_add_div hpos]

/-- Settles O34: the steps taken together, from no pulses. -/
theorem dividerNeverDrifts : Obligations.DividerNeverDrifts := by
  intro ns d hd hns run total
  obtain ⟨hsum, hlast⟩ := foldl_addPulses ns 0 d hd hns
  exact ⟨hsum.trans (Nat.zero_add _), hlast⟩

/-! The threshold counter (R60, R61). -/

/-- Settles O35: the three branches of `counter_tick`. -/
theorem counterTickFiresAtTheThreshold : Obligations.CounterTickFiresAtTheThreshold := by
  intro c threshold n
  refine ⟨fun hn => ?_, fun hn hge => ?_, fun hn hlt hmax => ?_⟩
  · rw [hn]; exact counterTick_zero c threshold
  · rw [counterTick, if_neg (show n ≠ 0#32 from hn), if_pos hge]; rfl
  · rw [counterTick, if_neg (show n ≠ 0#32 from hn), if_neg (Nat.not_le.mpr hlt)]
    exact ⟨rfl, by rw [BitVec.toNat_add, Nat.mod_eq_of_lt (hlt.trans hmax)]⟩

/-- The next remainder: the period is complete, or the remainder goes up by one. -/
theorem succ_mod_cases {m : Nat} (hm : 0 < m) (k : Nat) :
    (m ∣ k + 1 ∧ k % m + 1 = m ∧ (k + 1) % m = 0) ∨ (¬ m ∣ k + 1 ∧ k % m + 1 < m ∧ (k + 1) % m = k % m + 1) := by
  have hlt := Nat.mod_lt k hm
  have hnext : (k + 1) % m = (k % m + 1) % m := (Nat.mod_add_mod ..).symm
  by_cases h : k % m + 1 = m
  · rw [h, Nat.mod_self] at hnext
    exact .inl ⟨Nat.dvd_of_mod_eq_zero hnext, h, hnext⟩
  · rw [Nat.mod_eq_of_lt (show k % m + 1 < m by omega)] at hnext
    exact .inr ⟨fun hd => by have := Nat.mod_eq_zero_of_dvd hd; omega, by omega, hnext⟩

/-- The count of a counter with threshold `t` after `k` single pulses from 0. -/
def alignedCount (t k : Nat) : U32 :=
  .ofNat 32 (k % max t 1)

@[simp] theorem alignedCount_zero (t : Nat) : alignedCount t 0 = 0 := by
  simp [alignedCount]

theorem alignedCount_toNat {t : Nat} (ht : t < 2 ^ 32) (k : Nat) : (alignedCount t k).toNat = k % max t 1 := by
  have := Nat.mod_lt k (show 0 < max t 1 by omega)
  rw [alignedCount, BitVec.toNat_ofNat, Nat.mod_eq_of_lt (by omega)]

/-- R61: pulse number `k + 1` fires a counter that was aligned `k` pulses ago exactly when the period divides it. -/
theorem counterTick_aligned {t : Nat} (ht : t < 2 ^ 32) (k : Nat) :
    counterTick (alignedCount t k) t 1#32 = (decide (max t 1 ∣ k + 1), alignedCount t (k + 1)) := by
  rw [counterTick_one, alignedCount_toNat ht]
  rcases succ_mod_cases (show 0 < max t 1 by omega) k with ⟨hdvd, hfull, hnext⟩ | ⟨hdvd, hlt, hnext⟩
  · rw [if_pos (by omega)]
    simp [alignedCount, hnext, hdvd]
  · rw [if_neg (by omega)]
    simp [alignedCount, hnext, hdvd, BitVec.ofNat_add]

theorem counterTick_iterate {t : Nat} (ht : t < 2 ^ 32) (k : Nat) :
    (fun c => (counterTick c t 1#32).2)^[k] 0 = alignedCount t k := by
  induction k with
  | zero => exact (alignedCount_zero t).symm
  | succ k ih => rw [Function.iterate_succ_apply', ih, counterTick_aligned ht]

/-- Settles O36: after `k` calls the counter is aligned. -/
theorem counterFiresEveryPeriod : Obligations.CounterFiresEveryPeriod := by
  intro t k ht
  change (counterTick ((fun c => (counterTick c t 1#32).2)^[k] 0) t 1#32).1 = true ↔ _
  rw [counterTick_iterate ht, counterTick_aligned ht, decide_eq_true_iff]

/-! Aligned dividers and counters fed from a slower clock (R62, R63). -/

/-- The pulses of one tick of a clock: one or none. -/
def pulseIf (fires : Bool) : U32 :=
  if fires then 1#32 else 0#32

/-- A divider with the given shift after `k` single ticks from remainder 0. -/
def alignedDivider (shift k : Nat) : ClockDivider :=
  ⟨.ofNat 32 (k % 2 ^ shift), .ofNat 32 shift⟩

theorem alignedDivider_good {shift : Nat} (h : shift < 32) (k : Nat) : (alignedDivider shift k).Good shift := by
  have hle : 2 ^ shift ≤ 2 ^ 31 := Nat.pow_le_pow_right (by omega) (by omega)
  have hlt := Nat.mod_lt k (Nat.two_pow_pos shift)
  simp only [alignedDivider, ClockDivider.Good, BitVec.toNat_ofNat]
  rw [Nat.mod_eq_of_lt (show k % 2 ^ shift < 2 ^ 32 by omega)]
  exact ⟨Nat.mod_eq_of_lt (by omega), hlt⟩

theorem alignedDivider_remainder {shift : Nat} (h : shift < 32) (k : Nat) :
    (alignedDivider shift k).remainder.toNat = k % 2 ^ shift := by
  have hle : 2 ^ shift ≤ 2 ^ 31 := Nat.pow_le_pow_right (by omega) (by omega)
  have hlt := Nat.mod_lt k (Nat.two_pow_pos shift)
  rw [alignedDivider, BitVec.toNat_ofNat, Nat.mod_eq_of_lt (by omega)]

/-- A step of an aligned divider by at most one tick, in numbers. -/
theorem dividerStep_eq_aligned {shift k j : Nat} (h : shift < 32) {n : U32} {fires : Bool}
    (hfired : (k % 2 ^ shift + n.toNat) % 2 ^ 32 / 2 ^ shift = (pulseIf fires).toNat)
    (hrem : (k % 2 ^ shift + n.toNat) % 2 ^ 32 % 2 ^ shift = j % 2 ^ shift) :
    dividerStep (alignedDivider shift k) n = (pulseIf fires, alignedDivider shift j) := by
  have hshift : (alignedDivider shift k).shift.toNat = shift := (alignedDivider_good h k).1
  have h1 : (dividerStep (alignedDivider shift k) n).1 = pulseIf fires := by
    apply BitVec.eq_of_toNat_eq
    rw [dividerStep_fired, hshift, alignedDivider_remainder h, hfired]
  have h2 : (dividerStep (alignedDivider shift k) n).2.remainder = (alignedDivider shift j).remainder := by
    apply BitVec.eq_of_toNat_eq
    rw [dividerStep_remainder, hshift, alignedDivider_remainder h, alignedDivider_remainder h, hrem]
  rw [← h1]
  exact Prod.ext rfl (congrArg (ClockDivider.mk · _) h2)

/-- R62: tick `k + 1` fires a divider that was aligned `k` ticks ago exactly when `2^shift` divides it. -/
theorem dividerStep_aligned {shift : Nat} (h : shift < 32) (k : Nat) : dividerStep (alignedDivider shift k) 1#32 =
    (pulseIf (decide (2 ^ shift ∣ k + 1)), alignedDivider shift (k + 1)) := by
  have hpos := Nat.two_pow_pos shift
  have hle : 2 ^ shift ≤ 2 ^ 31 := Nat.pow_le_pow_right (by omega) (by omega)
  have hsum : (k % 2 ^ shift + (1#32).toNat) % 2 ^ 32 = k % 2 ^ shift + 1 :=
    Nat.mod_eq_of_lt (by have := Nat.mod_lt k hpos; simp; omega)
  rcases succ_mod_cases hpos k with ⟨hdvd, hfull, hnext⟩ | ⟨hdvd, hlt, hnext⟩
  · rw [decide_eq_true hdvd]
    exact dividerStep_eq_aligned h (by rw [hsum, hfull, Nat.div_self hpos]; rfl)
      (by rw [hsum, hfull, Nat.mod_self, hnext])
  · rw [decide_eq_false hdvd]
    exact dividerStep_eq_aligned h (by rw [hsum, Nat.div_eq_of_lt hlt]; rfl) (by rw [hsum, Nat.mod_eq_of_lt hlt, hnext])

/-- Without a tick an aligned divider holds. -/
theorem dividerStep_aligned_zero {shift : Nat} (h : shift < 32) (k : Nat) :
    dividerStep (alignedDivider shift k) 0#32 = (pulseIf false, alignedDivider shift k) := by
  have hlt := Nat.mod_lt k (Nat.two_pow_pos shift)
  have hle : 2 ^ shift ≤ 2 ^ 31 := Nat.pow_le_pow_right (by omega) (by omega)
  have hsum : (k % 2 ^ shift + (0#32).toNat) % 2 ^ 32 = k % 2 ^ shift := Nat.mod_eq_of_lt (by simp; omega)
  exact dividerStep_eq_aligned h (by rw [hsum, Nat.div_eq_of_lt hlt]; rfl) (by rw [hsum, Nat.mod_mod])

/-- A clock that fires every `p` ticks has fired `k / p` times after `k` ticks, and feeds a slower one of `m` of its own
pulses: the slower one fires when `p * m` divides the tick. -/
theorem slower_fires {p m k : Nat} (h : p ∣ k + 1) : decide (m ∣ k / p + 1) = decide (p * m ∣ k + 1) := by
  obtain ⟨q, hq⟩ := h
  have hp : 0 < p := Nat.pos_of_ne_zero fun h0 => by simp [h0] at hq
  have hk : k / p + 1 = q := by
    rw [← Nat.succ_div_of_dvd ⟨q, hq⟩, hq, Nat.mul_div_cancel_left _ hp]
  rw [hk, hq, decide_eq_decide, Nat.mul_dvd_mul_iff_left hp]

theorem slower_silent {p m k : Nat} (h : ¬ p ∣ k + 1) : decide (p * m ∣ k + 1) = false :=
  decide_eq_false fun hd => h (Dvd.dvd.trans (Nat.dvd_mul_right ..) hd)

/-- R62, R63: an aligned divider fed from a clock of period `p`. -/
theorem dividerStep_fed {shift : Nat} (h : shift < 32) (p k : Nat) :
    dividerStep (alignedDivider shift (k / p)) (pulseIf (decide (p ∣ k + 1))) =
      (pulseIf (decide (p * 2 ^ shift ∣ k + 1)), alignedDivider shift ((k + 1) / p)) := by
  by_cases hd : p ∣ k + 1
  · rw [decide_eq_true hd, Nat.succ_div_of_dvd hd, ← slower_fires hd]
    exact dividerStep_aligned h _
  · rw [decide_eq_false hd, Nat.succ_div_of_not_dvd hd, slower_silent hd]
    exact dividerStep_aligned_zero h _

/-- R61, R63: an aligned counter fed from a clock of period `p`. -/
theorem counterTick_fed {t : Nat} (ht : t < 2 ^ 32) (p k : Nat) :
    counterTick (alignedCount t (k / p)) t (pulseIf (decide (p ∣ k + 1))) =
      (decide (p * max t 1 ∣ k + 1), alignedCount t ((k + 1) / p)) := by
  by_cases hd : p ∣ k + 1
  · rw [decide_eq_true hd, Nat.succ_div_of_dvd hd, ← slower_fires hd]
    exact counterTick_aligned ht _
  · rw [decide_eq_false hd, Nat.succ_div_of_not_dvd hd, slower_silent hd]
    exact counterTick_zero _ _

/-! The sequencer and the dividers it feeds (R63). -/

/-- The sequencer `k` ticks after a zero remainder. -/
abbrev seqAt (k : Nat) : ClockDivider := alignedDivider 11 k

/-- A divider that the sequencer feeds, `k` ticks after zero remainders. -/
abbrev fedAt (shift k : Nat) : ClockDivider := alignedDivider shift (k / 2048)

theorem seqAt_step (k : Nat) :
    dividerStep (seqAt k) 1#32 = (pulseIf (decide (2048 ∣ k + 1)), seqAt (k + 1)) :=
  dividerStep_aligned (by decide) k

theorem fedAt_step {shift : Nat} (h : shift < 32) (k : Nat) :
    dividerStep (fedAt shift k) (pulseIf (decide (2048 ∣ k + 1))) =
      (pulseIf (decide (2048 * 2 ^ shift ∣ k + 1)), fedAt shift (k + 1)) :=
  dividerStep_fed h 2048 k

end Sys2Proof.Laws
end

section
/-!
The family of spec/45_host_interface.md and spec/60_exceptions.md: NEXT and CNEXT by their sample rate, the refusals of
R137, and the pulls of a silent block or channel.
-/

namespace Sys2Proof.Laws

open Sys2Proof Sys2Proof.Machine

/-! NEXT and CNEXT by their sample rate (D21). -/

theorem exec_next_bad {r : U32} (h : sampleRateAdmitted r = false) (s : State) :
    exec (.next r) s = .refused .BadSampleRate := by
  rw [exec_next, h]; rfl

theorem exec_cnext_bad {r : U32} (h : sampleRateAdmitted r = false) (c : Channel) (s : State) :
    exec (.cnext c r) s = .refused .BadSampleRate := by
  rw [exec_cnext, h]; rfl

theorem exec_next_admitted {r : U32} (h : sampleRateAdmitted r = true) (s : State) : exec (.next r) s =
    if s.mixer.tickable then
      .next (s.answer (mixerTicks (ticksPerSample r) s.mixer).2
        (.mono (monoOut (mixerTicks (ticksPerSample r) s.mixer).1 s.mixer.scaleAmplitude)))
    else .refused .DividerShiftRange := by
  rw [exec_next, h]; rfl

theorem exec_cnext_admitted {r : U32} (h : sampleRateAdmitted r = true) (c : Channel) (s : State) :
    exec (.cnext c r) s =
    if channelTickable s.mixer c then
      .next (s.answer (channelTicks s.mixer c (ticksPerSample r)).2
        (.mono (wrap16 (channelTicks s.mixer c (ticksPerSample r)).1)))
    else .refused .DividerShiftRange := by
  rw [exec_cnext, h]; rfl

theorem sampleRateAdmitted_of_bounds {r : U32} (h : 1 ≤ r.toNat) (h' : r.toNat ≤ 2 ^ 20) :
    sampleRateAdmitted r = true :=
  (sampleRateAdmitted_iff r).mpr ⟨h, h'⟩

/-! Dividers out of range (R58, R137). -/

theorem inRange_eq_false {d : ClockDivider} (h : 32 ≤ d.shift.toNat) : d.inRange = false :=
  decide_eq_false (Nat.not_lt.mpr h)

theorem tone_not_tickable {T : ToneChannel} (hrun : T.running = true)
    (h : 32 ≤ T.divSeq.shift.toNat ∨ 32 ≤ T.divSweep.shift.toNat ∨ 32 ≤ T.divLen.shift.toNat ∨
      32 ≤ T.divEnv.shift.toNat) : T.tickable = false := by
  rcases h with h | h | h | h <;>
    simp [ToneChannel.tickable, ToneChannel.dividersInRange, hrun, inRange_eq_false h]

theorem noise_not_tickable {N : NoiseChannel} (hrun : N.running = true)
    (h : 32 ≤ N.divSeq.shift.toNat ∨ 32 ≤ N.divLen.shift.toNat ∨ 32 ≤ N.divEnv.shift.toNat) :
    N.tickable = false := by
  rcases h with h | h | h <;>
    simp [NoiseChannel.tickable, NoiseChannel.dividersInRange, hrun, inRange_eq_false h]

theorem exec_ctick_refused {s : State} {c : Channel} (h : channelTickable s.mixer c = false) :
    exec (.ctick c) s = .refused .DividerShiftRange := by
  rw [exec_ctick, h]; rfl

theorem exec_cnext_refused {r : U32} (hr : sampleRateAdmitted r = true) {s : State} {c : Channel}
    (h : channelTickable s.mixer c = false) : exec (.cnext c r) s = .refused .DividerShiftRange := by
  rw [exec_cnext_admitted hr, h]; rfl

theorem exec_tick_refused {s : State} (h : s.mixer.tickable = false) :
    exec .tick s = .refused .DividerShiftRange := by
  rw [exec_tick, h]; rfl

theorem exec_next_refused {r : U32} (hr : sampleRateAdmitted r = true) {s : State} (h : s.mixer.tickable = false) :
    exec (.next r) s = .refused .DividerShiftRange := by
  rw [exec_next_admitted hr, h]; rfl

/-- A powered block with a channel that cannot be ticked cannot be ticked. -/
theorem mixer_not_tickable {m : Mixer} (hon : m.enabled = true)
    (h : m.tone1.tickable = false ∨ m.tone2.tickable = false ∨ m.noise.tickable = false) : m.tickable = false := by
  rcases h with h | h | h <;> simp [Mixer.tickable, hon, h]

/-- Settles O24: a bad rate is asked for first; a running channel with a shift of 32 or more is not tickable, and
neither is a powered block that holds it. -/
theorem badRatesAndBadShiftsAreRefused : Obligations.BadRatesAndBadShiftsAreRefused := by
  refine ⟨fun r c s h => ?_, fun r s hr hr' => ?_⟩
  · have hbad : sampleRateAdmitted r = false := by
      rw [Bool.eq_false_iff, Ne, sampleRateAdmitted_iff]
      omega
    exact ⟨exec_next_bad hbad s, exec_cnext_bad hbad c s⟩
  · have hadm := sampleRateAdmitted_of_bounds hr hr'
    refine ⟨fun ⟨hrun, h⟩ => ?_, fun ⟨hrun, h⟩ => ?_, fun ⟨hrun, h⟩ => ?_, fun hon h => ?_⟩
    · have hc : channelTickable s.mixer .tone1 = false := tone_not_tickable hrun h
      exact ⟨exec_ctick_refused hc, exec_cnext_refused hadm hc⟩
    · have hc : channelTickable s.mixer .tone2 = false := tone_not_tickable hrun h
      exact ⟨exec_ctick_refused hc, exec_cnext_refused hadm hc⟩
    · have hc : channelTickable s.mixer .noise = false := noise_not_tickable hrun h
      exact ⟨exec_ctick_refused hc, exec_cnext_refused hadm hc⟩
    · have hm : s.mixer.tickable = false := mixer_not_tickable hon <| by
        rcases h with ⟨hrun, h⟩ | ⟨hrun, h⟩ | ⟨hrun, h⟩
        · exact .inl (tone_not_tickable hrun h)
        · exact .inr (.inl (tone_not_tickable hrun h))
        · exact .inr (.inr (noise_not_tickable hrun h))
      exact ⟨exec_tick_refused hm, exec_next_refused hadm hm⟩

/-! A block that is powered off, and a stopped channel. -/

@[simp] theorem wrap16_zero : wrap16 0 = 0 := rfl

/-- R98: silence is scaled to silence. -/
theorem monoOut_silence (scale : I32) : monoOut ⟨0, 0⟩ scale = 0 := by
  simp [monoOut, truncDiv]

/-- Settles O25: powered off, any number of Mixer ticks gives (0, 0) and keeps the block. -/
theorem poweredOffPullsAreSilent : Obligations.PoweredOffPullsAreSilent := by
  intro s r hoff hr hr'
  have ht : s.mixer.tickable = true := by simp [Mixer.tickable, hoff]
  constructor
  · rw [exec_tick, if_pos ht, mixerTick_off hoff]; rfl
  · rw [exec_next_admitted (sampleRateAdmitted_of_bounds hr hr'), if_pos ht, mixerTicks_off _ hoff, monoOut_silence]
    rfl

/-- A pull of a channel that can be ticked, and whose ticks return 0 and hold the block, does just that. -/
theorem channelPull_silent {s : State} {c : Channel} {r : U32} (hr : sampleRateAdmitted r = true)
    (ht : channelTickable s.mixer c = true) (h : ∀ k, channelTicks s.mixer c k = (0, s.mixer)) :
    exec (.ctick c) s = .next { s with result := .mono 0 } ∧
    exec (.cnext c r) s = .next { s with result := .mono 0 } := by
  rw [exec_ctick, exec_cnext_admitted hr, if_pos ht, if_pos ht, h, h]
  exact ⟨rfl, rfl⟩

/-- Settles O26: a stopped channel steps no divider, so it can be ticked, and its ticks hold it. -/
theorem stoppedChannelsHoldAndReturnZero : Obligations.StoppedChannelsHoldAndReturnZero := by
  intro s r hr hr'
  have hadm := sampleRateAdmitted_of_bounds hr hr'
  refine ⟨fun h => channelPull_silent hadm ?_ fun k => ?_, fun h => channelPull_silent hadm ?_ fun k => ?_,
    fun h => channelPull_silent hadm ?_ fun k => ?_⟩
  · simp [channelTickable, ToneChannel.tickable, h]
  · simp only [channelTicks, toneTicks_stopped k h]
  · simp [channelTickable, ToneChannel.tickable, h]
  · simp only [channelTicks, toneTicks_stopped k h]
  · simp [channelTickable, NoiseChannel.tickable, h]
  · simp only [channelTicks, noiseTicks_stopped k h]

end Sys2Proof.Laws
end

section
/-!
The family of spec/45_host_interface.md, pulls: each as its ticks one after the other (R81, R93, R98, R132, R133), the
routed and scaled sum of a TICK (R94-R96), and the bounds of what the host receives (R24 item 5, R99).
-/

namespace Sys2Proof.Laws

open Sys2Proof Sys2Proof.Machine

/-! The ticks of one channel. -/

theorem channelTicks_succ (m : Mixer) (c : Channel) (k : Nat) :
    channelTicks m c (k + 1) = channelTicks (channelTicks m c k).2 c 1 := by
  cases c <;> simp only [channelTicks, toneTicks_succ k, noiseTicks_succ k, toneTicks_one, noiseTicks_one]

theorem channelTicks_good {m : Mixer} (h : MixerGood m) (c : Channel) (k : Nat) : MixerGood (channelTicks m c k).2 :=
  channelTicks_keeps c k h (fun _ ⟨h1, h2, hn⟩ => ⟨toneTick_good h1, h2, hn⟩)
    (fun _ ⟨h1, h2, hn⟩ => ⟨h1, toneTick_good h2, hn⟩) (fun _ ⟨h1, h2, hn⟩ => ⟨h1, h2, noiseTick_good hn⟩)

theorem channelTicks_bounds (m : Mixer) (c : Channel) (k : Nat) :
    -15 ≤ (channelTicks m c k).1 ∧ (channelTicks m c k).1 ≤ 15 := by
  cases c
  · exact toneTicks_bounds k m.tone1
  · exact toneTicks_bounds k m.tone2
  · exact noiseTicks_bounds k m.noise

theorem mixerTicks_good {m : Mixer} (h : MixerGood m) (k : Nat) : MixerGood (mixerTicks k m).2 :=
  mixerTicks_keeps (fun _ => mixerTick_good) k h

theorem channelGood_tickable {m : Mixer} (h : MixerGood m) (c : Channel) : channelTickable m c = true := by
  obtain ⟨h1, h2, hn⟩ := h
  cases c
  · exact toneGood_tickable h1
  · exact toneGood_tickable h2
  · exact noiseGood_tickable hn

theorem exec_ctick_tickable {s : State} {c : Channel} (h : channelTickable s.mixer c = true) : exec (.ctick c) s =
    .next (s.answer (channelTicks s.mixer c 1).2 (.mono (wrap16 (channelTicks s.mixer c 1).1))) := by
  rw [exec_ctick, if_pos h]

theorem exec_tick_tickable {s : State} (h : s.mixer.tickable = true) : exec .tick s =
    .next (s.answer (mixerTick s.mixer).2 (stereoResult (mixerTick s.mixer).1)) := by
  rw [exec_tick, if_pos h]

theorem tone_tickable_of_inRange {T : ToneChannel} (h : T.dividersInRange = true) : T.tickable = true := by
  simp [ToneChannel.tickable, h]

theorem noise_tickable_of_inRange {N : NoiseChannel} (h : N.dividersInRange = true) : N.tickable = true := by
  simp [NoiseChannel.tickable, h]

/-- Settles O27: with its dividers in range the channel can be ticked, and CTICK is one tick of it. -/
theorem channelTickAdvancesOneChannel : Obligations.ChannelTickAdvancesOneChannel := by
  intro s
  refine ⟨fun h => ?_, fun h => ?_, fun h => ?_⟩
  · exact exec_ctick_tickable (c := .tone1) (tone_tickable_of_inRange h)
  · exact exec_ctick_tickable (c := .tone2) (tone_tickable_of_inRange h)
  · exact exec_ctick_tickable (c := .noise) (noise_tickable_of_inRange h)

/-! Operations applied one by one. -/

theorem execAll_concat {ops : List Instr} {i : Instr} {s t : State} (h : execAll ops s = .next t) :
    execAll (ops ++ [i]) s = exec i t := by
  induction ops generalizing s with
  | nil =>
    obtain rfl : s = t := Host.Outcome.next.inj h
    rw [List.nil_append, execAll]
    cases exec i s <;> rfl
  | cons j js ih =>
    rw [execAll] at h
    rw [List.cons_append, execAll]
    cases hj : exec j s with
    | next u => rw [hj] at h; exact ih h
    | fault r => rw [hj] at h; cases h
    | refused r => rw [hj] at h; cases h

theorem execAll_replicate_succ {k : Nat} {i : Instr} {s t : State}
    (h : execAll (List.replicate k i) s = .next t) : execAll (List.replicate (k + 1) i) s = exec i t := by
  rw [List.replicate_succ', execAll_concat h]

/-- `k + 1` CTICKs of a good block end where its channel's `k + 1` ticks end, with the last sample. -/
theorem execAll_ctick {s : State} (hs : s.Good) (c : Channel) (k : Nat) :
    execAll (List.replicate (k + 1) (.ctick c)) s = .next (s.answer (channelTicks s.mixer c (k + 1)).2
      (.mono (wrap16 (channelTicks s.mixer c (k + 1)).1))) := by
  induction k with
  | zero => rw [execAll_replicate_succ (t := s) rfl, exec_ctick_tickable (channelGood_tickable hs c)]
  | succ k ih =>
    rw [execAll_replicate_succ ih,
      exec_ctick_tickable (channelGood_tickable (channelTicks_good hs c (k + 1)) c), channelTicks_succ _ c (k + 1)]
    rfl

/-- `k + 1` TICKs of a good block end where its `k + 1` Mixer ticks end, with the last pair. -/
theorem execAll_tick {s : State} (hs : s.Good) (k : Nat) :
    execAll (List.replicate (k + 1) .tick) s = .next (s.answer (mixerTicks (k + 1) s.mixer).2
      (stereoResult (mixerTicks (k + 1) s.mixer).1)) := by
  induction k with
  | zero => rw [execAll_replicate_succ (t := s) rfl, exec_tick_tickable (mixerGood_tickable hs)]; rfl
  | succ k ih =>
    rw [execAll_replicate_succ ih,
      exec_tick_tickable (mixerGood_tickable (mixerTicks_good hs (k + 1))), mixerTicks_succ (k + 1)]
    rfl

/-- An admitted rate gives at least one tick a sample. -/
theorem ticksPerSample_succ {r : U32} (h : 1 ≤ r.toNat) (h' : r.toNat ≤ 2 ^ 20) :
    ∃ k, 2 ^ 20 / r.toNat = k + 1 ∧ ticksPerSample r = k + 1 :=
  ⟨ticksPerSample r - 1, (Nat.sub_add_cancel (ticksPerSample_pos h h')).symm,
    (Nat.sub_add_cancel (ticksPerSample_pos h h')).symm⟩

/-- Settles O28: CNEXT and the CTICKs both end in the channel's ticks. -/
theorem channelNextIsItsTicks : Obligations.ChannelNextIsItsTicks := by
  intro c r s hs hr hr'
  obtain ⟨k, hk, hticks⟩ := ticksPerSample_succ hr hr'
  rw [exec_cnext_admitted (sampleRateAdmitted_of_bounds hr hr'), if_pos (channelGood_tickable hs c), hticks, hk]
  exact ⟨_, rfl, execAll_ctick hs c k⟩

/-! What the host receives. -/

theorem sample_toInt {v : Int} (h : -15 ≤ v ∧ v ≤ 15) : (wrap16 v).toInt = v :=
  wrap16_toInt (by omega) (by omega)

theorem lane_toInt {v : Int} (h : -360 ≤ v ∧ v ≤ 360) : (wrap16 v).toInt = v :=
  wrap16_toInt (by omega) (by omega)

/-- R95, R97: a lane is the routed sum of the three channels' samples. -/
theorem routeLane_eq (m : Mixer) (i : Nat) : routeLane m.terminal i (tickChannels m).1 =
    (if m.terminal.tone1.getLsbD i then (toneTick m.tone1).1 else 0) +
    (if m.terminal.tone2.getLsbD i then (toneTick m.tone2).1 else 0) +
    (if m.terminal.noise.getLsbD i then (noiseTick m.noise).1 else 0) := by
  rw [routeLane, tickChannels_wave, gate_zero, add_zero]
  rfl

/-- Settles O29: a powered Mixer tick is one tick of each channel, its pair the routed sums by the volume factors. -/
theorem tickMixesTheThreeChannelTicks : Obligations.TickMixesTheThreeChannelTicks := by
  intro s hs hon
  obtain ⟨h1, h2, hn⟩ := hs
  obtain ⟨hleft, hright⟩ := mixerTick_bounds s.mixer
  have hx := sample_toInt (toneTick_bounds s.mixer.tone1)
  have hy := sample_toInt (toneTick_bounds s.mixer.tone2)
  have hz := sample_toInt (noiseTick_bounds s.mixer.noise)
  refine ⟨_, _, _, _, _, _, ⟨exec_ctick_tickable (c := .tone1) (toneGood_tickable h1), rfl⟩,
    ⟨exec_ctick_tickable (c := .tone2) (toneGood_tickable h2), rfl⟩,
    ⟨exec_ctick_tickable (c := .noise) (noiseGood_tickable hn), rfl⟩, ?_⟩
  intro lane
  have hlane (i : Nat) : routeLane s.mixer.terminal i (tickChannels s.mixer).1 = lane i := by
    rw [routeLane_eq, ← hx, ← hy, ← hz]; rfl
  refine ⟨wrap16 (mixerTick s.mixer).1.left, wrap16 (mixerTick s.mixer).1.right, ?_, ?_, ?_⟩
  · rw [exec_tick_tickable (mixerGood_tickable ⟨h1, h2, hn⟩), mixerTick_on hon]
    rfl
  · rw [lane_toInt hleft, mixerTick_on hon, ← hlane]; rfl
  · rw [lane_toInt hright, mixerTick_on hon, ← hlane]; rfl

/-- Settles O30: NEXT and the TICKs both end in the Mixer's ticks, and NEXT's sample is `monoOut` of the last pair. -/
theorem nextIsTicksThenScaling : Obligations.NextIsTicksThenScaling := by
  intro q s hs hq hq'
  obtain ⟨k, hk, hticks⟩ := ticksPerSample_succ hq hq'
  obtain ⟨hleft, hright⟩ := mixerTicks_bounds (k + 1) s.mixer
  rw [hk]
  refine ⟨_, _, _, execAll_tick hs k, rfl, ?_⟩
  rw [exec_next_admitted (sampleRateAdmitted_of_bounds hq hq'), if_pos (mixerGood_tickable hs), hticks,
    lane_toInt hleft, lane_toInt hright]
  rfl

/-- R99: the mono sample of a pair in bounds, while its largest value fits 16 bits. -/
theorem monoOut_bounds {p : Stereo} (hl : -360 ≤ p.left ∧ p.left ≤ 360) (hr : -360 ≤ p.right ∧ p.right ≤ 360)
    {scale : I32} (hs : scale.toInt.natAbs ≤ 46603) :
    (monoOut p scale).toInt.natAbs ≤ 360 * scale.toInt.natAbs / 512 := by
  have havg : ((p.left + p.right).tdiv 2).natAbs ≤ 360 := by
    rw [Int.natAbs_tdiv]
    show (p.left + p.right).natAbs / 2 ≤ 360
    omega
  have hscaled : (((p.left + p.right).tdiv 2 * scale.toInt).tdiv 512).natAbs ≤ 360 * scale.toInt.natAbs / 512 := by
    rw [Int.natAbs_tdiv, Int.natAbs_mul]
    exact Nat.div_le_div_right (Nat.mul_le_mul_right _ havg)
  have hmono : monoOut p scale = wrap16 (((p.left + p.right).tdiv 2 * scale.toInt).tdiv 512) := rfl
  rw [hmono, wrap16_toInt (by omega) (by omega)]
  exact hscaled

/-- Settles O32: the bounds of the ticks, which the 16-bit result keeps. -/
theorem samplesAreBounded : Obligations.SamplesAreBounded := by
  intro s t
  refine ⟨fun c v h hv => ?_, fun c r v h hv => ?_, fun l r h hv => ?_, fun r v h hv hscale => ?_⟩
  · obtain ⟨-, rfl⟩ := exec_ctick_next h
    obtain rfl := Result.mono.inj hv
    rw [sample_toInt (channelTicks_bounds s.mixer c 1)]
    exact channelTicks_bounds s.mixer c 1
  · obtain ⟨-, -, rfl⟩ := exec_cnext_next h
    obtain rfl := Result.mono.inj hv
    rw [sample_toInt (channelTicks_bounds s.mixer c _)]
    exact channelTicks_bounds s.mixer c _
  · obtain ⟨-, rfl⟩ := exec_tick_next h
    obtain ⟨rfl, rfl⟩ := Result.stereo.inj hv
    obtain ⟨hleft, hright⟩ := mixerTick_bounds s.mixer
    rw [lane_toInt hleft, lane_toInt hright]
    exact ⟨hleft, hright⟩
  · obtain ⟨-, -, rfl⟩ := exec_next_next h
    obtain rfl := Result.mono.inj hv
    obtain ⟨hleft, hright⟩ := mixerTicks_bounds (ticksPerSample r) s.mixer
    exact monoOut_bounds hleft hright hscale

end Sys2Proof.Laws
end

section
/-!
The family of spec/41_tone_channel.md, one tick: the steps by cases (R71, R72, R73) and their places in it (R64, R66).
-/

namespace Sys2Proof.Laws

open Sys2Proof Sys2Proof.Machine

/-- The channel after its sweep counter has taken the pulses. -/
def countSweep (T : ToneChannel) (sw : U32) : ToneChannel :=
  { T with sweep := { T.sweep with count := (counterTick T.sweep.count T.sweep.time.toNat sw).2 } }

theorem toneSweep_on {T : ToneChannel} (sw : U32) (h : T.sweep.enabled = true) : toneSweep T sw =
    if (counterTick T.sweep.count T.sweep.time.toNat sw).1 then sweepUpdate (countSweep T sw)
    else countSweep T sw := by
  rw [toneSweep, if_pos h]
  rfl

@[simp] theorem toneSweep_addition (T : ToneChannel) (n : U32) :
    (toneSweep T n).sweep.addition = T.sweep.addition := by
  obtain ⟨_, _, _, _, h, -⟩ := toneSweep_frame T n; rw [h]
@[simp] theorem toneSweep_shift (T : ToneChannel) (n : U32) : (toneSweep T n).sweep.shift = T.sweep.shift := by
  obtain ⟨_, _, _, _, h, -⟩ := toneSweep_frame T n; rw [h]

@[simp] theorem toneAdvance_addition (T : ToneChannel) : (toneAdvance T).sweep.addition = T.sweep.addition := by
  simp [toneAdvance, toneEnvelope, toneLength, toneSubclocks, tonePhase]
@[simp] theorem toneAdvance_shift (T : ToneChannel) : (toneAdvance T).sweep.shift = T.sweep.shift := by
  simp [toneAdvance, toneEnvelope, toneLength, toneSubclocks, tonePhase]

/-! The sample (R67, R68, R83). -/

theorem dutyThreshold_eq : ∀ duty : BitVec 2, dutyThreshold duty = [1, 2, 4, 6][duty.toNat]! := by
  decide

theorem signedAmplitude_eq (high : Bool) (a : BitVec 4) :
    signedAmplitude high a = (if high then 1 else -1) * (a.toNat : Int) := by
  cases high <;> simp [signedAmplitude]

/-- Settles O38: the sample of a running channel is its amplitude with the sign of the waveform half. -/
theorem samplesFollowTheWaveforms : Obligations.SamplesFollowTheWaveforms := by
  refine ⟨fun T hrun => ?_, fun N hrun => ?_⟩
  · rw [toneTick_running hrun, ← dutyThreshold_eq]
    simp only [toneSample, signedAmplitude_eq, decide_eq_true_eq]
  · have hlast : N.last = 0#1 ↔ N.last.toNat = 0 := BitVec.toNat_inj.symm
    rw [noiseTick_running hrun]
    simp only [noiseSample, signedAmplitude_eq, beq_iff_eq, hlast]

/-! Step 4 by cases (R71). -/

theorem sweepDelta_eq (g : BitVec 11) (shift : BitVec 3) : sweepDelta g shift = g.toNat / 2 ^ shift.toNat :=
  Nat.shiftRight_eq_div_pow ..

section sweep
variable {T : ToneChannel}

theorem sweepUpdate_add (ha : T.sweep.addition = true)
    (h : T.gbfreq.toNat + T.gbfreq.toNat / 2 ^ T.sweep.shift.toNat ≤ 2047) : sweepUpdate T =
    { T with gbfreq := .ofNat 11 (T.gbfreq.toNat + T.gbfreq.toNat / 2 ^ T.sweep.shift.toNat) } := by
  have hno : sweepOverflows (T.gbfreq.toNat + T.gbfreq.toNat / 2 ^ T.sweep.shift.toNat) = false :=
    decide_eq_false (Nat.not_lt.mpr h)
  simp only [sweepUpdate, if_pos ha, sweepDelta_eq, hno]
  simp [flagAfterOverflow]

theorem sweepUpdate_overflow (ha : T.sweep.addition = true)
    (h : 2047 < T.gbfreq.toNat + T.gbfreq.toNat / 2 ^ T.sweep.shift.toNat) : sweepUpdate T =
    { T with running := false, sweep := { T.sweep with enabled := false } } := by
  have hover : sweepOverflows (T.gbfreq.toNat + T.gbfreq.toNat / 2 ^ T.sweep.shift.toNat) = true :=
    decide_eq_true h
  simp only [sweepUpdate, if_pos ha, sweepDelta_eq, hover]
  simp [flagAfterOverflow]

theorem sweepUpdate_sub (ha : T.sweep.addition = false)
    (h : T.gbfreq.toNat / 2 ^ T.sweep.shift.toNat < T.gbfreq.toNat) : sweepUpdate T =
    { T with gbfreq := .ofNat 11 (T.gbfreq.toNat - T.gbfreq.toNat / 2 ^ T.sweep.shift.toNat) } := by
  simp [sweepUpdate, ha, sweepDelta_eq, h]

theorem sweepUpdate_keep (ha : T.sweep.addition = false)
    (h : ¬ T.gbfreq.toNat / 2 ^ T.sweep.shift.toNat < T.gbfreq.toNat) : sweepUpdate T = T := by
  simp [sweepUpdate, ha, sweepDelta_eq, h]

theorem toneSweep_counts {sw : U32} (he : T.sweep.enabled = true)
    (hp : (counterTick T.sweep.count T.sweep.time.toNat sw).1 = false) : toneSweep T sw = countSweep T sw := by
  rw [toneSweep_on sw he, hp]; rfl

theorem toneSweep_fires {sw : U32} (he : T.sweep.enabled = true)
    (hp : (counterTick T.sweep.count T.sweep.time.toNat sw).1 = true) :
    toneSweep T sw = sweepUpdate (countSweep T sw) := by
  rw [toneSweep_on sw he, hp]; rfl

end sweep

/-! The steps in a running tick (R64, R66, R70, R82). -/

theorem envelopeStep_moving {u : EnvelopeUnit} (h : u.n ≠ 0#3) (ev : U32) : envelopeStep u ev = { u with
    count := (counterTick u.count u.n.toNat ev).2
    amplitude := if (counterTick u.count u.n.toNat ev).1 then amplitudeStep u.increase u.amplitude
      else u.amplitude } := by
  rw [envelopeStep, if_neg h]

/-- R72: the expiry clears `running` unless `repeat` is set. -/
theorem runningAfterLength_eq (expired repeats running : Bool) : runningAfterLength expired repeats running =
    if expired = true ∧ repeats = false then false else running := by
  cases expired <;> cases repeats <;> simp [runningAfterLength]

/-- The channel as step 4 of its tick finds it: the steps before leave `running`, the sweep unit and `gbfreq`. -/
theorem toneAdvance_sweep_step (T : ToneChannel) :
    let swept := toneSweep T (dividerStep T.divSweep (dividerStep T.divSeq 1#32).1).1
    (toneAdvance T).gbfreq = swept.gbfreq ∧ (toneAdvance T).sweep = swept.sweep ∧
    (toneAdvance T).running = runningAfterLength
      (lengthStep T.len (dividerStep T.divLen (dividerStep T.divSeq 1#32).1).1).1 T.len.repeats swept.running := by
  obtain ⟨hrun, hsweep, hfreq⟩ := toneSweep_congr (T := (toneSubclocks (tonePhase T)).2) (U := T) rfl rfl rfl
    (dividerStep T.divSweep (dividerStep T.divSeq 1#32).1).1
  refine ⟨hfreq, hsweep, ?_⟩
  rw [← hrun]
  simp only [toneAdvance, toneEnvelope, toneLength, toneSweep_len]
  rfl

/-- Settles O41: step 4 by its six cases, and its place in the tick. -/
theorem sweepStepByCases : Obligations.SweepStepByCases := by
  refine ⟨fun T sw => ?_, fun T hrun => ?_⟩
  · exact ⟨toneSweep_off sw, toneSweep_counts,
      fun he hp ha h => (toneSweep_fires he hp).trans (sweepUpdate_add ha h),
      fun he hp ha h => (toneSweep_fires he hp).trans (sweepUpdate_overflow ha h),
      fun he hp ha h => (toneSweep_fires he hp).trans (sweepUpdate_sub ha h),
      fun he hp ha h => (toneSweep_fires he hp).trans (sweepUpdate_keep ha h)⟩
  · obtain ⟨hfreq, hsweep, hrunning⟩ := toneAdvance_sweep_step T
    rw [toneTick_running hrun]
    exact ⟨hfreq, hsweep, hrunning.trans (runningAfterLength_eq ..)⟩

/-- Settles O42: the length step of either kind of channel, and its place in the tick. -/
theorem lengthExpiryStopsTheChannel : Obligations.LengthExpiryStopsTheChannel := by
  refine ⟨fun T N ln => ⟨?_, ?_⟩, fun T hrun => ?_, fun N hrun => ?_⟩
  · rw [← runningAfterLength_eq]; rfl
  · rw [← runningAfterLength_eq]; rfl
  · rw [toneTick_running hrun, toneAdvance_len]; rfl
  · intro M
    rw [noiseTick_running hrun, noiseAdvance_len, noiseAdvance_running]
    exact ⟨rfl, rfl⟩

/-- Settles O43: the envelope step frozen and moving, and its place in the tick. -/
theorem envelopeStepsAndClamps : Obligations.EnvelopeStepsAndClamps := by
  refine ⟨fun u ev => ⟨fun h => ?_, fun h => ?_⟩, fun T hrun => ?_, fun N hrun => ?_⟩
  · rw [envelopeStep, if_pos (show u.n = 0#3 from h)]
  · intro p
    rw [envelopeStep_moving h, apply_ite BitVec.toNat, amplitudeStep_toNat]
    exact ⟨rfl, rfl, rfl, rfl, rfl⟩
  · rw [toneTick_running hrun, toneAdvance_env]; rfl
  · rw [noiseTick_running hrun, noiseAdvance_env]; rfl

/-- Settles O44: the sample and the other fields of a running tick are functions of fields outside the sweep unit. -/
theorem sweepStopSkipsNoLaterStep : Obligations.SweepStopSkipsNoLaterStep := by
  intro T u hrun a b
  have ha : a = (toneSample T, toneAdvance T) := toneTick_running hrun
  have hb : b = (toneSample T, toneAdvance { T with sweep := u }) :=
    toneTick_running (T := { T with sweep := u }) hrun
  rw [ha, hb]
  simp

end Sys2Proof.Laws
end

section
/-!
The schedules of spec/40_clock_divider.md R63 over the ticks of a running channel: the dividers, the length expiry (R72)
and the envelope's ramp (R73). What the two kinds of channel share is said once, of a clock that both project to.
-/

namespace Sys2Proof.Laws

open Sys2Proof Sys2Proof.Machine

/-! The dividers of a channel that keeps running (R63). -/

/-- After `k` running ticks from zero remainders a tone channel's dividers are aligned. -/
theorem toneTicks_dividers {T : ToneChannel} (hseq : T.divSeq = seqAt 0) (hsweep : T.divSweep = fedAt 2 0)
    (hlen : T.divLen = fedAt 1 0) (henv : T.divEnv = fedAt 3 0) (k : Nat)
    (hrun : ∀ j < k, (toneTicks j T).2.running = true) :
    (toneTicks k T).2.divSeq = seqAt k ∧ (toneTicks k T).2.divSweep = fedAt 2 k ∧
    (toneTicks k T).2.divLen = fedAt 1 k ∧ (toneTicks k T).2.divEnv = fedAt 3 k := by
  induction k with
  | zero => exact ⟨hseq, hsweep, hlen, henv⟩
  | succ k ih =>
    obtain ⟨h1, h2, h3, h4⟩ := ih fun j hj => hrun j (Nat.lt_succ_of_lt hj)
    rw [toneTicks_succ, toneTick_running (hrun k (Nat.lt_succ_self k))]
    simp only [toneAdvance_divSeq, toneAdvance_divSweep, toneAdvance_divLen, toneAdvance_divEnv, h1, h2, h3, h4,
      seqAt_step, fedAt_step (show 2 < 32 by decide), fedAt_step (show 1 < 32 by decide),
      fedAt_step (show 3 < 32 by decide), and_self]

/-- The same for the noise channel's three dividers (R89). -/
theorem noiseTicks_dividers {N : NoiseChannel} (hseq : N.divSeq = seqAt 0) (hlen : N.divLen = fedAt 1 0)
    (henv : N.divEnv = fedAt 3 0) (k : Nat) (hrun : ∀ j < k, (noiseTicks j N).2.running = true) :
    (noiseTicks k N).2.divSeq = seqAt k ∧ (noiseTicks k N).2.divLen = fedAt 1 k ∧
    (noiseTicks k N).2.divEnv = fedAt 3 k := by
  induction k with
  | zero => exact ⟨hseq, hlen, henv⟩
  | succ k ih =>
    obtain ⟨h1, h2, h3⟩ := ih fun j hj => hrun j (Nat.lt_succ_of_lt hj)
    rw [noiseTicks_succ, noiseTick_running (hrun k (Nat.lt_succ_self k))]
    simp only [noiseAdvance_divSeq, noiseAdvance_divLen, noiseAdvance_divEnv, h1, h2, h3,
      seqAt_step, fedAt_step (show 1 < 32 by decide), fedAt_step (show 3 < 32 by decide), and_self]

theorem fedAt_fires {shift : Nat} (h : shift < 32) (k : Nat) :
    (dividerStep (fedAt shift k) (dividerStep (seqAt k) 1#32).1).1 =
      if 2048 * 2 ^ shift ∣ k + 1 then 1#32 else 0#32 := by
  rw [seqAt_step, fedAt_step h]
  simp [pulseIf]

/-- Settles O37: the remainders of the aligned dividers, and the pulses of their next step. -/
theorem subclocksFollowTheSchedule : Obligations.SubclocksFollowTheSchedule := by
  intro T N k
  refine ⟨fun hseq hsweep hlen henv hrun => ?_, fun hseq hlen henv hrun => ?_⟩
  · obtain ⟨h1, h2, h3, h4⟩ := toneTicks_dividers hseq hsweep hlen henv k hrun
    intro U
    refine ⟨?_, ?_, ?_, ?_, fun _ => ⟨?_, ?_, ?_⟩⟩
    · rw [h1]; exact alignedDivider_remainder (by decide) k
    · rw [h2]; exact alignedDivider_remainder (by decide) _
    · rw [h3]; exact alignedDivider_remainder (by decide) _
    · rw [h4]; exact alignedDivider_remainder (by decide) _
    · change (dividerStep U.divSweep (dividerStep U.divSeq 1#32).1).1 = _
      rw [h1, h2]; exact fedAt_fires (by decide) k
    · change (dividerStep U.divLen (dividerStep U.divSeq 1#32).1).1 = _
      rw [h1, h3]; exact fedAt_fires (by decide) k
    · change (dividerStep U.divEnv (dividerStep U.divSeq 1#32).1).1 = _
      rw [h1, h4]; exact fedAt_fires (by decide) k
  · obtain ⟨h1, h2, h3⟩ := noiseTicks_dividers hseq hlen henv k hrun
    intro U
    have hpulses : (noiseSubclocks (noiseGate U)).1 =
        ⟨0#32, (dividerStep U.divLen (dividerStep U.divSeq 1#32).1).1,
          (dividerStep U.divEnv (dividerStep U.divSeq 1#32).1).1⟩ := by
      simp only [noiseSubclocks, noiseGate_divSeq, noiseGate_divLen, noiseGate_divEnv]
    refine ⟨?_, ?_, ?_, fun _ => ?_⟩
    · rw [h1]; exact alignedDivider_remainder (by decide) k
    · rw [h2]; exact alignedDivider_remainder (by decide) _
    · rw [h3]; exact alignedDivider_remainder (by decide) _
    · rw [hpulses, h1, h2, h3]
      exact ⟨fedAt_fires (by decide) k, fedAt_fires (by decide) k⟩

/-! The length clock: what decides when a channel without a sweep stops (R72). -/

/-- The part of a channel that its length counter reads and writes. -/
structure LengthClock where
  running : Bool
  divSeq : ClockDivider
  divLen : ClockDivider
  len : LengthUnit

/-- The length clock's part of a tick of either kind of channel. -/
def LengthClock.tick (c : LengthClock) : LengthClock :=
  if c.running then
    let q := dividerStep c.divSeq 1#32
    let ln := dividerStep c.divLen q.1
    let p := lengthStep c.len ln.1
    ⟨runningAfterLength p.1 c.len.repeats c.running, q.2, ln.2, p.2⟩
  else c

/-- The length clock of a tone channel. -/
def toneLengthClock (T : ToneChannel) : LengthClock := ⟨T.running, T.divSeq, T.divLen, T.len⟩

/-- The length clock of the noise channel. -/
def noiseLengthClock (N : NoiseChannel) : LengthClock := ⟨N.running, N.divSeq, N.divLen, N.len⟩

theorem toneLengthClock_tick {T : ToneChannel} (h : T.sweep.enabled = false) :
    toneLengthClock (toneTick T).2 = (toneLengthClock T).tick := by
  cases hrun : T.running
  · rw [toneTick_stopped hrun]; simp [LengthClock.tick, toneLengthClock, hrun]
  · rw [toneTick_running hrun]
    simp [LengthClock.tick, toneLengthClock, hrun, (toneAdvance_unswept h).2.2]

theorem noiseLengthClock_tick (N : NoiseChannel) : noiseLengthClock (noiseTick N).2 = (noiseLengthClock N).tick := by
  cases hrun : N.running
  · rw [noiseTick_stopped hrun]; simp [LengthClock.tick, noiseLengthClock, hrun]
  · rw [noiseTick_running hrun]
    simp [LengthClock.tick, noiseLengthClock, hrun]

theorem toneTicks_unswept {T : ToneChannel} (h : T.sweep.enabled = false) (k : Nat) :
    (toneTicks k T).2.sweep.enabled = false :=
  toneTicks_keeps (P := fun U => U.sweep.enabled = false) (fun U hU => by
    refine toneTick_keeps (P := fun V => V.sweep.enabled = false) hU fun _ => ?_
    rw [(toneAdvance_unswept hU).1]; exact hU) k h

theorem toneLengthClock_ticks {T : ToneChannel} (h : T.sweep.enabled = false) (k : Nat) :
    toneLengthClock (toneTicks k T).2 = LengthClock.tick^[k] (toneLengthClock T) := by
  induction k with
  | zero => rfl
  | succ k ih => rw [toneTicks_succ, toneLengthClock_tick (toneTicks_unswept h k), ih, Function.iterate_succ_apply']

theorem noiseLengthClock_ticks (N : NoiseChannel) (k : Nat) :
    noiseLengthClock (noiseTicks k N).2 = LengthClock.tick^[k] (noiseLengthClock N) := by
  induction k with
  | zero => rfl
  | succ k ih => rw [noiseTicks_succ, noiseLengthClock_tick, ih, Function.iterate_succ_apply']

/-- A running length clock without `repeat`, `k` ticks after an aligned start. -/
def lengthClockAt (length : BitVec 6) (k : Nat) : LengthClock :=
  ⟨true, seqAt k, fedAt 1 k, ⟨alignedCount (lengthTarget length) (k / 4096), length, false⟩⟩

theorem lengthTarget_pos (length : BitVec 6) : 1 ≤ lengthTarget length := by
  have := length.isLt
  simp only [lengthTarget, Config.lenBase]
  omega

/-- The expiry stops the clock, and nothing else does. -/
theorem lengthClockAt_tick (length : BitVec 6) (k : Nat) : (lengthClockAt length k).tick =
    { lengthClockAt length (k + 1) with running := !decide (4096 * lengthTarget length ∣ k + 1) } := by
  have hcount := counterTick_fed (t := lengthTarget length) (by have := lengthTarget_le length; omega) 4096 k
  rw [max_eq_left (lengthTarget_pos length)] at hcount
  have hlen : dividerStep (fedAt 1 k) (pulseIf (decide (2048 ∣ k + 1))) =
      (pulseIf (decide (4096 ∣ k + 1)), fedAt 1 (k + 1)) := fedAt_step (by decide) k
  simp only [LengthClock.tick, lengthClockAt, lengthStep, runningAfterLength, if_true, seqAt_step, hlen, hcount,
    Bool.not_false, Bool.and_true, Bool.true_and]

/-- Before the expiry the clock runs. -/
theorem lengthClock_before (length : BitVec 6) {k : Nat} (hk : k < 4096 * lengthTarget length) :
    LengthClock.tick^[k] (lengthClockAt length 0) = lengthClockAt length k := by
  induction k with
  | zero => rfl
  | succ k ih =>
    have hno : ¬ 4096 * lengthTarget length ∣ k + 1 := Nat.not_dvd_of_pos_of_lt (Nat.succ_pos k) hk
    rw [Function.iterate_succ_apply', ih (by omega), lengthClockAt_tick, decide_eq_false hno]
    rfl

/-- From the expiry on the clock is stopped. -/
theorem lengthClock_after (length : BitVec 6) (j : Nat) :
    (LengthClock.tick^[j + 4096 * lengthTarget length] (lengthClockAt length 0)).running = false := by
  have hpos := lengthTarget_pos length
  induction j with
  | zero =>
    obtain ⟨k, hk⟩ := Nat.exists_eq_succ_of_ne_zero (show 4096 * lengthTarget length ≠ 0 by omega)
    rw [Nat.zero_add, hk, Function.iterate_succ_apply', lengthClock_before length (by omega), lengthClockAt_tick, hk]
    simp
  | succ j ih =>
    rw [Nat.add_right_comm, Function.iterate_succ_apply', LengthClock.tick, if_neg (by simp [ih])]
    exact ih

theorem lengthClock_running (length : BitVec 6) (k : Nat) :
    (LengthClock.tick^[k] (lengthClockAt length 0)).running = true ↔ k < (64 - length.toNat) * 4096 := by
  rw [show (64 - length.toNat) * 4096 = 4096 * lengthTarget length from Nat.mul_comm ..]
  constructor
  · intro hrun
    by_contra hge
    obtain ⟨j, hj⟩ := Nat.exists_eq_add_of_le' (Nat.not_lt.mp hge)
    rw [hj, lengthClock_after] at hrun
    cases hrun
  · intro hlt
    rw [lengthClock_before length hlt]
    rfl

/-- Settles O46: both kinds of channel project to the length clock at its aligned start. -/
theorem lengthExpiresOnTime : Obligations.LengthExpiresOnTime := by
  refine ⟨fun T k hrun hsweep hrep hcount hseq hlen => ?_, fun N k hrun hrep hcount hseq hlen => ?_⟩
  · have hstart : toneLengthClock T = lengthClockAt T.len.length 0 := by
      rw [toneLengthClock, hrun, hseq, hlen, show T.len = ⟨0, T.len.length, false⟩ by rw [← hrep, ← hcount]]
      rfl
    rw [← lengthClock_running, ← hstart, ← toneLengthClock_ticks hsweep]
    rfl
  · have hstart : noiseLengthClock N = lengthClockAt N.len.length 0 := by
      rw [noiseLengthClock, hrun, hseq, hlen, show N.len = ⟨0, N.len.length, false⟩ by rw [← hrep, ← hcount]]
      rfl
    rw [← lengthClock_running, ← hstart, ← noiseLengthClock_ticks]
    rfl

end Sys2Proof.Laws
end

section
/-!
The ramp of the envelope over the ticks of a channel that nothing stops (R73, R63).
-/

namespace Sys2Proof.Laws

open Sys2Proof Sys2Proof.Machine

/-! A channel that nothing stops. -/

/-- A running tone channel that no sweep and no length expiry stops. -/
abbrev ToneRunsOn (T : ToneChannel) : Prop :=
  T.running = true ∧ T.sweep.enabled = false ∧ T.len.repeats = true

/-- A running noise channel that no length expiry stops. -/
abbrev NoiseRunsOn (N : NoiseChannel) : Prop :=
  N.running = true ∧ N.len.repeats = true

theorem toneAdvance_runsOn {T : ToneChannel} (h : ToneRunsOn T) : ToneRunsOn (toneAdvance T) := by
  obtain ⟨hrun, hsweep, hrep⟩ := h
  obtain ⟨hs, -, hr⟩ := toneAdvance_unswept hsweep
  refine ⟨?_, by rw [hs]; exact hsweep, by simpa using hrep⟩
  rw [hr, hrun, hrep]
  simp [runningAfterLength]

theorem noiseAdvance_runsOn {N : NoiseChannel} (h : NoiseRunsOn N) : NoiseRunsOn (noiseAdvance N) := by
  obtain ⟨hrun, hrep⟩ := h
  refine ⟨?_, by simpa using hrep⟩
  rw [noiseAdvance_running, hrun, hrep]
  simp [runningAfterLength]

theorem toneTicks_runsOn {T : ToneChannel} (h : ToneRunsOn T) (k : Nat) : ToneRunsOn (toneTicks k T).2 :=
  toneTicks_keeps (fun _ hU => toneTick_keeps hU fun _ => toneAdvance_runsOn hU) k h

theorem noiseTicks_runsOn {N : NoiseChannel} (h : NoiseRunsOn N) (k : Nat) : NoiseRunsOn (noiseTicks k N).2 :=
  noiseTicks_keeps (fun _ hU => noiseTick_keeps hU fun _ => noiseAdvance_runsOn hU) k h

/-- Tick `k + 1` of a channel that runs on. -/
theorem toneTicks_succ_runsOn {T : ToneChannel} (h : ToneRunsOn T) (k : Nat) :
    toneTicks (k + 1) T = (toneSample (toneTicks k T).2, toneAdvance (toneTicks k T).2) := by
  rw [toneTicks_succ, toneTick_running (toneTicks_runsOn h k).1]

theorem noiseTicks_succ_runsOn {N : NoiseChannel} (h : NoiseRunsOn N) (k : Nat) :
    noiseTicks (k + 1) N = (noiseSample (noiseTicks k N).2, noiseAdvance (noiseTicks k N).2) := by
  rw [noiseTicks_succ, noiseTick_running (noiseTicks_runsOn h k).1]

/-! The envelope clock. -/

/-- The part of a channel that its envelope unit reads and writes. -/
structure EnvelopeClock where
  divSeq : ClockDivider
  divEnv : ClockDivider
  env : EnvelopeUnit

/-- The envelope clock's part of a running tick of either kind of channel. -/
def EnvelopeClock.tick (c : EnvelopeClock) : EnvelopeClock :=
  let q := dividerStep c.divSeq 1#32
  let ev := dividerStep c.divEnv q.1
  ⟨q.2, ev.2, envelopeStep c.env ev.1⟩

/-- The envelope clock of a tone channel. -/
def toneEnvelopeClock (T : ToneChannel) : EnvelopeClock := ⟨T.divSeq, T.divEnv, T.env⟩

/-- The envelope clock of the noise channel. -/
def noiseEnvelopeClock (N : NoiseChannel) : EnvelopeClock := ⟨N.divSeq, N.divEnv, N.env⟩

theorem toneEnvelopeClock_advance (T : ToneChannel) :
    toneEnvelopeClock (toneAdvance T) = (toneEnvelopeClock T).tick := by
  simp [toneEnvelopeClock, EnvelopeClock.tick]

theorem noiseEnvelopeClock_advance (N : NoiseChannel) :
    noiseEnvelopeClock (noiseAdvance N) = (noiseEnvelopeClock N).tick := by
  simp [noiseEnvelopeClock, EnvelopeClock.tick]

theorem toneEnvelopeClock_ticks {T : ToneChannel} (h : ToneRunsOn T) (k : Nat) :
    toneEnvelopeClock (toneTicks k T).2 = EnvelopeClock.tick^[k] (toneEnvelopeClock T) := by
  induction k with
  | zero => rfl
  | succ k ih => rw [toneTicks_succ_runsOn h, toneEnvelopeClock_advance, ih, Function.iterate_succ_apply']

theorem noiseEnvelopeClock_ticks {N : NoiseChannel} (h : NoiseRunsOn N) (k : Nat) :
    noiseEnvelopeClock (noiseTicks k N).2 = EnvelopeClock.tick^[k] (noiseEnvelopeClock N) := by
  induction k with
  | zero => rfl
  | succ k ih => rw [noiseTicks_succ_runsOn h, noiseEnvelopeClock_advance, ih, Function.iterate_succ_apply']

/-- The envelope clock `k` ticks after an aligned start with the unit `u`. -/
def envelopeClockAt (u : EnvelopeUnit) (k : Nat) : EnvelopeClock :=
  ⟨seqAt k, fedAt 3 k, { u with
    count := alignedCount u.n.toNat (k / 16384)
    amplitude := (amplitudeStep u.increase)^[k / (16384 * u.n.toNat)] u.amplitude }⟩

theorem envelopeClockAt_tick {u : EnvelopeUnit} (h : u.n ≠ 0#3) (k : Nat) :
    (envelopeClockAt u k).tick = envelopeClockAt u (k + 1) := by
  have hn : 1 ≤ u.n.toNat := Nat.one_le_iff_ne_zero.mpr fun h0 => h (BitVec.eq_of_toNat_eq h0)
  have hcount := counterTick_fed (t := u.n.toNat) (by omega) 16384 k
  rw [max_eq_left hn] at hcount
  have henv : dividerStep (fedAt 3 k) (pulseIf (decide (2048 ∣ k + 1))) =
      (pulseIf (decide (16384 ∣ k + 1)), fedAt 3 (k + 1)) := fedAt_step (by decide) k
  have hmoves : (if decide (16384 * u.n.toNat ∣ k + 1) then
        amplitudeStep u.increase ((amplitudeStep u.increase)^[k / (16384 * u.n.toNat)] u.amplitude)
      else (amplitudeStep u.increase)^[k / (16384 * u.n.toNat)] u.amplitude) =
      (amplitudeStep u.increase)^[(k + 1) / (16384 * u.n.toNat)] u.amplitude := by
    by_cases hd : 16384 * u.n.toNat ∣ k + 1
    · rw [if_pos (decide_eq_true hd), Nat.succ_div_of_dvd hd, Function.iterate_succ_apply']
    · rw [if_neg (by simp [hd]), Nat.succ_div_of_not_dvd hd]
  simp only [EnvelopeClock.tick, envelopeClockAt, seqAt_step, henv]
  rw [envelopeStep_moving (by exact h)]
  simp only [hcount, hmoves]

theorem envelopeClock_ticks {u : EnvelopeUnit} (h : u.n ≠ 0#3) (k : Nat) :
    EnvelopeClock.tick^[k] (envelopeClockAt u 0) = envelopeClockAt u k := by
  induction k with
  | zero => rfl
  | succ k ih => rw [Function.iterate_succ_apply', ih, envelopeClockAt_tick h]

/-- R73: `j` amplitude steps, clamped. -/
theorem amplitudeStep_iterate_toNat (increase : Bool) (a : BitVec 4) (j : Nat) :
    ((amplitudeStep increase)^[j] a).toNat = if increase then min (a.toNat + j) 15 else a.toNat - j := by
  have := a.isLt
  induction j with
  | zero => cases increase <;> simp; omega
  | succ j ih =>
    rw [Function.iterate_succ_apply', amplitudeStep_toNat, ih]
    cases increase <;> simp <;> omega

/-- The amplitude `k` ticks after an aligned start. -/
theorem envelopeClockAt_amplitude (u : EnvelopeUnit) (k : Nat) : (envelopeClockAt u k).env.amplitude.toNat =
    if u.increase then min (u.amplitude.toNat + k / (u.n.toNat * 16384)) 15
    else u.amplitude.toNat - k / (u.n.toNat * 16384) := by
  rw [Nat.mul_comm u.n.toNat]
  exact amplitudeStep_iterate_toNat ..

theorem envelopeClockAt_start {u : EnvelopeUnit} (h : u.count = 0#32) :
    envelopeClockAt u 0 = ⟨⟨0, 11⟩, ⟨0, 3⟩, u⟩ := by
  have henv : { u with count := 0#32 } = u := by rw [← h]
  rw [envelopeClockAt, Nat.zero_div, Nat.zero_div, alignedCount_zero]
  exact congrArg (EnvelopeClock.mk ⟨0, 11⟩ ⟨0, 3⟩) henv

/-- Settles O47: both kinds of channel project to the envelope clock at its aligned start. -/
theorem envelopeRampsOnTime : Obligations.EnvelopeRampsOnTime := by
  unfold Obligations.EnvelopeRampsOnTime
  intro ramp
  refine ⟨fun T k hrun hsweep hrep hn hcount hseq henv => ?_, fun N k hrun hrep hn hcount hseq henv => ?_⟩
  · have hstart : toneEnvelopeClock T = envelopeClockAt T.env 0 := by
      rw [envelopeClockAt_start hcount, toneEnvelopeClock, hseq, henv]
    have h := toneEnvelopeClock_ticks ⟨hrun, hsweep, hrep⟩ k
    rw [hstart, envelopeClock_ticks hn] at h
    exact (congrArg (fun c => c.env.amplitude.toNat) h).trans (envelopeClockAt_amplitude T.env k)
  · have hstart : noiseEnvelopeClock N = envelopeClockAt N.env 0 := by
      rw [envelopeClockAt_start hcount, noiseEnvelopeClock, hseq, henv]
    have h := noiseEnvelopeClock_ticks ⟨hrun, hrep⟩ k
    rw [hstart, envelopeClock_ticks hn] at h
    exact (congrArg (fun c => c.env.amplitude.toNat) h).trans (envelopeClockAt_amplitude N.env k)

end Sys2Proof.Laws
end

section
/-!
The waveform of a free-running tone (R80) and the clock gate of a free-running noise channel (R84, R85).
-/

namespace Sys2Proof.Laws

open Sys2Proof Sys2Proof.Machine

/-! The tone (R69, R80). -/

theorem phasePeriod_pos (g : BitVec 11) : 1 ≤ phasePeriod g := by
  have := g.isLt
  simp only [phasePeriod, Config.phaseBase]
  omega

/-- R73: with `env_n` 0 the envelope unit is frozen. -/
theorem envelopeStep_frozen {u : EnvelopeUnit} (h : u.n = 0#3) (ev : U32) : envelopeStep u ev = u := by
  rw [envelopeStep, if_pos h]

/-- After `k` ticks of a free-running tone from the start of its waveform the settings are the same, and the phase and
duty counts are aligned. -/
theorem toneTicks_waveform {T : ToneChannel} (h : ToneRunsOn T) (hn : T.env.n = 0#3) (hphase : T.phaseCount = 0#32)
    (hduty : T.dutyCount = 0#3) (k : Nat) :
    ((toneTicks k T).2.gbfreq = T.gbfreq ∧ (toneTicks k T).2.duty = T.duty ∧ (toneTicks k T).2.env = T.env) ∧
    (toneTicks k T).2.phaseCount = alignedCount (phasePeriod T.gbfreq) k ∧
    (toneTicks k T).2.dutyCount = .ofNat 3 (k / phasePeriod T.gbfreq) := by
  induction k with
  | zero => exact ⟨⟨rfl, rfl, rfl⟩, by simpa using hphase, by simpa using hduty⟩
  | succ k ih =>
    obtain ⟨⟨hg, hd, he⟩, hp, hc⟩ := ih
    have hfreq := (toneAdvance_unswept (toneTicks_runsOn h k).2.1).2.1
    have hphasek := counterTick_aligned (t := phasePeriod T.gbfreq) (by have := phasePeriod_le T.gbfreq; omega) k
    rw [max_eq_left (phasePeriod_pos T.gbfreq)] at hphasek
    rw [toneTicks_succ_runsOn h]
    refine ⟨⟨hfreq.trans hg, (toneAdvance_duty _).trans hd, ?_⟩, ?_, ?_⟩
    · rw [toneAdvance_env, he, envelopeStep_frozen hn]
    · rw [toneAdvance_phaseCount, hg, hp, hphasek]
    · rw [toneAdvance_dutyCount, hg, hp, hc, hphasek]
      by_cases hdvd : phasePeriod T.gbfreq ∣ k + 1
      · rw [if_pos (decide_eq_true hdvd), Nat.succ_div_of_dvd hdvd, BitVec.ofNat_add]
      · rw [if_neg (by simp [hdvd]), Nat.succ_div_of_not_dvd hdvd]

/-- R80: the sample of tick `k + 1` by the duty step it falls in. -/
theorem toneTicks_sample {T : ToneChannel} (h : ToneRunsOn T) (hn : T.env.n = 0#3) (hphase : T.phaseCount = 0#32)
    (hduty : T.dutyCount = 0#3) (k : Nat) : (toneTicks (k + 1) T).1 =
    if k / phasePeriod T.gbfreq % 8 < dutyThreshold T.duty then (T.env.amplitude.toNat : Int)
    else -(T.env.amplitude.toNat : Int) := by
  obtain ⟨⟨-, hd, he⟩, -, hc⟩ := toneTicks_waveform h hn hphase hduty k
  rw [toneTicks_succ_runsOn h, toneSample, hd, he, hc, BitVec.toNat_ofNat]
  simp [signedAmplitude]

/-- Settles O45: the CTICKs of a good block are the channel's ticks. -/
theorem toneWaveformHasTheDutyAndPeriod : Obligations.ToneWaveformHasTheDutyAndPeriod := by
  intro s k hs hrun hrep hn hsweep hphase hduty
  refine ⟨_, _, execAll_ctick hs .tone1 k, rfl, ?_⟩
  rw [sample_toInt (channelTicks_bounds s.mixer .tone1 (k + 1)), ← dutyThreshold_eq]
  exact toneTicks_sample ⟨hrun, hsweep, hrep⟩ hn hphase hduty k

/-! The clock gate (R84, R85). -/

/-- The gate as two counters, the second fed with the first one's pulses, and the LFSR fed with the second one's. -/
theorem noiseGate_fed (N : NoiseChannel) :
    let p := counterTick N.prescaleCount N.prescale.toNat 1#32
    let q := counterTick N.shiftCount (2 ^ N.shiftClock.toNat) (pulseIf p.1)
    (noiseGate N).prescaleCount = p.2 ∧ (noiseGate N).shiftCount = q.2 ∧
    (noiseGate N).lfsr = (if q.1 then lfsrNext N.smallStep N.lfsr else N.lfsr) ∧
    (noiseGate N).last = (if q.1 then field (lfsrSeed N.lfsr) 0 1 else N.last) := by
  intro p q
  cases hp : p.1
  · have hq : q = (false, N.shiftCount) := by simp only [q, hp]; exact counterTick_zero ..
    rw [noiseGate, if_neg (Bool.eq_false_iff.mp hp), hq]
    exact ⟨rfl, rfl, rfl, rfl⟩
  · have hq : counterTick N.shiftCount (shiftClockThreshold N.shiftClock) 1#32 = q := by
      simp only [q, hp, shiftClockThreshold_eq]; rfl
    have hgate : noiseGate N = if q.1 then lfsrAdvance { N with prescaleCount := p.2, shiftCount := q.2 }
        else { N with prescaleCount := p.2, shiftCount := q.2 } := by
      rw [noiseGate, if_pos hp, hq]
    rw [hgate]
    cases q.1 <;> exact ⟨rfl, rfl, rfl, rfl⟩

theorem shiftThreshold_le (sc : BitVec 4) : 2 ^ sc.toNat ≤ 2 ^ 15 :=
  Nat.pow_le_pow_right (by decide) (by omega)

/-- After `k` ticks of a free-running noise channel from zero counts the settings are the same, both counts are aligned,
and the register has advanced once for each time both counters fired. -/
theorem noiseTicks_gate {N : NoiseChannel} (h : NoiseRunsOn N) (hpre : N.prescaleCount = 0#32)
    (hshift : N.shiftCount = 0#32) (k : Nat) :
    ((noiseTicks k N).2.prescale = N.prescale ∧ (noiseTicks k N).2.shiftClock = N.shiftClock ∧
      (noiseTicks k N).2.smallStep = N.smallStep) ∧
    (noiseTicks k N).2.prescaleCount = alignedCount N.prescale.toNat k ∧
    (noiseTicks k N).2.shiftCount = alignedCount (2 ^ N.shiftClock.toNat) (k / max N.prescale.toNat 1) ∧
    (noiseTicks k N).2.lfsr =
      (lfsrNext N.smallStep)^[k / (max N.prescale.toNat 1 * 2 ^ N.shiftClock.toNat)] N.lfsr := by
  have hle := shiftThreshold_le N.shiftClock
  induction k with
  | zero => exact ⟨⟨rfl, rfl, rfl⟩, by simpa using hpre, by simpa using hshift, by simp⟩
  | succ k ih =>
    obtain ⟨⟨hp, hs, hm⟩, hpc, hsc, hl⟩ := ih
    obtain ⟨hpc', hsc', hl', -⟩ := noiseGate_fed (noiseTicks k N).2
    have hfire := counterTick_aligned (t := N.prescale.toNat) (by omega) k
    have hfed := counterTick_fed (t := 2 ^ N.shiftClock.toNat) (by omega) (max N.prescale.toNat 1) k
    rw [max_eq_left Nat.one_le_two_pow] at hfed
    rw [hpc, hp, hfire] at hpc'
    rw [hpc, hp, hfire, hsc, hs, hfed] at hsc'
    rw [hpc, hp, hfire, hsc, hs, hfed, hm, hl] at hl'
    rw [noiseTicks_succ_runsOn h]
    refine ⟨⟨(noiseAdvance_prescale _).trans hp, (noiseAdvance_shiftClock _).trans hs,
      (noiseAdvance_smallStep _).trans hm⟩, hpc', hsc', hl'.trans ?_⟩
    by_cases hd : max N.prescale.toNat 1 * 2 ^ N.shiftClock.toNat ∣ k + 1
    · rw [if_pos (decide_eq_true hd), Nat.succ_div_of_dvd hd, Function.iterate_succ_apply']
    · rw [if_neg (by simp [hd]), Nat.succ_div_of_not_dvd hd]

/-- Settles O49: the gate of one tick by whether the prescale counter fires, and `noiseTicks_gate`. -/
theorem lfsrGateDividesTheTicks : Obligations.LfsrGateDividesTheTicks := by
  refine ⟨fun N hrun => ?_, fun N k hrun hrep hpre hshift => (noiseTicks_gate ⟨hrun, hrep⟩ hpre hshift k).2.2.2⟩
  intro p q a t
  obtain ⟨hpre, hshift, hlfsr, hlast⟩ := noiseGate_fed N
  have ht : t = noiseAdvance N := congrArg Prod.snd (noiseTick_running hrun)
  rw [ht, noiseAdvance_prescaleCount, noiseAdvance_shiftCount, noiseAdvance_lfsr, noiseAdvance_last, hpre, hshift,
    hlfsr, hlast]
  change _ ∧ (counterTick _ _ (pulseIf p.1)).2 = _ ∧ (if (counterTick _ _ (pulseIf p.1)).1 then _ else _) = _ ∧
    (if (counterTick _ _ (pulseIf p.1)).1 then _ else _) = _
  cases p.1
  · rw [show pulseIf false = 0#32 from rfl, counterTick_zero]
    exact ⟨rfl, rfl, rfl, rfl⟩
  · exact ⟨rfl, rfl, rfl, rfl⟩

end Sys2Proof.Laws
end

section
/-!
The LFSR of spec/42_noise_channel.md: one advance as arithmetic on numbers (R87), and its sequences from 1 (R88).
-/

namespace Sys2Proof.Laws

open Sys2Proof Sys2Proof.Machine

/-! One advance in numbers (R87). -/

/-- R87 on numbers: the register after one advance. -/
def lfsrNumber (smallStep : Bool) (n : Nat) : Nat :=
  let l := if n = 0 then 1 else n
  let fb := (l + l / 2) % 2
  (l / 2 ||| fb * 2 ^ 14) ||| (if smallStep then fb * 2 ^ 6 else 0)

theorem lfsrSeed_toNat (l : BitVec 16) : (lfsrSeed l).toNat = if l.toNat = 0 then 1 else l.toNat := by
  have hzero : l = 0#16 ↔ l.toNat = 0 := BitVec.toNat_inj.symm
  simp only [lfsrSeed, hzero, apply_ite BitVec.toNat]
  rfl

theorem lfsrFeedback_toNat (l : BitVec 16) : (lfsrFeedback l).toNat = (l.toNat + l.toNat / 2) % 2 := by
  rw [lfsrFeedback, BitVec.toNat_xor, BitVec.toNat_and, BitVec.toNat_and, BitVec.toNat_ushiftRight,
    Nat.shiftRight_eq_div_pow]
  change (l.toNat &&& 1) ^^^ (l.toNat / 2 &&& 1) = _
  rw [Nat.and_one_is_mod, Nat.and_one_is_mod, Nat.add_mod]
  rcases Nat.mod_two_eq_zero_or_one l.toNat with h | h <;>
    rcases Nat.mod_two_eq_zero_or_one (l.toNat / 2) with h' | h' <;> rw [h, h'] <;> rfl

/-- The feedback, 0 or 1, moved to a bit of the register. -/
theorem lfsrFeedback_shift_toNat (l : BitVec 16) {i : Nat} (hi : i < 16) :
    (lfsrFeedback l <<< i).toNat = (l.toNat + l.toNat / 2) % 2 * 2 ^ i := by
  rw [BitVec.toNat_shiftLeft, Nat.shiftLeft_eq, lfsrFeedback_toNat]
  refine Nat.mod_eq_of_lt ?_
  have hle : 2 ^ i ≤ 2 ^ 15 := Nat.pow_le_pow_right (by omega) (by omega)
  rcases Nat.mod_two_eq_zero_or_one (l.toNat + l.toNat / 2) with h | h <;> rw [h] <;> omega

theorem lfsrNext_toNat (smallStep : Bool) (l : BitVec 16) :
    (lfsrNext smallStep l).toNat = lfsrNumber smallStep l.toNat := by
  simp only [lfsrNext, lfsrNumber, BitVec.toNat_or, BitVec.toNat_ushiftRight, apply_ite BitVec.toNat,
    lfsrFeedback_shift_toNat (lfsrSeed l) (show 14 < 16 by decide),
    lfsrFeedback_shift_toNat (lfsrSeed l) (show 6 < 16 by decide), lfsrSeed_toNat]
  rfl

/-- Settles O48: the register in numbers, and `last` as the seeded register's bit 0. -/
theorem lfsrAdvanceByItsBits : Obligations.LfsrAdvanceByItsBits := by
  intro N l fb
  have hnext : lfsrNext N.smallStep N.lfsr = .ofNat 16 (lfsrNumber N.smallStep N.lfsr.toNat) := by
    rw [← lfsrNext_toNat, BitVec.ofNat_toNat, BitVec.setWidth_eq]
  have hlast : field (lfsrSeed N.lfsr) 0 1 = .ofNat 1 l := by
    rw [field_eq_ofNat, lfsrSeed_toNat, Nat.pow_zero, Nat.div_one]
  rw [lfsrAdvance, hnext, hlast]
  rfl

/-! The sequences from 1 (R88). -/

/-- `k` advances on numbers. It matches on the number at each step, so that an evaluation of it computes one number
after the other. -/
def lfsrRun (smallStep : Bool) : Nat → Nat → Nat
  | 0, n => n
  | k + 1, 0 => lfsrRun smallStep k (lfsrNumber smallStep 0)
  | k + 1, n + 1 => lfsrRun smallStep k (lfsrNumber smallStep (n + 1))

theorem lfsrRun_succ (smallStep : Bool) (k n : Nat) :
    lfsrRun smallStep (k + 1) n = lfsrRun smallStep k (lfsrNumber smallStep n) := by
  cases n <;> rfl

theorem lfsrNext_iterate_toNat (smallStep : Bool) (k : Nat) (l : BitVec 16) :
    ((lfsrNext smallStep)^[k] l).toNat = lfsrRun smallStep k l.toNat := by
  induction k generalizing l with
  | zero => rfl
  | succ k ih => rw [Function.iterate_succ_apply, ih, lfsrRun_succ, lfsrNext_toNat]

theorem lfsrNext_iterate_eq_iff (smallStep : Bool) (k : Nat) (l m : BitVec 16) :
    (lfsrNext smallStep)^[k] l = m ↔ lfsrRun smallStep k l.toNat = m.toNat := by
  rw [← BitVec.toNat_inj, lfsrNext_iterate_toNat]

/-- A point that `n` steps return has period `n` exactly, if no quotient of `n` by a prime returns it. -/
theorem iterate_ne_of_prime_quotients {α : Type} {f : α → α} {x : α} {n : Nat} (hn : f^[n] x = x)
    (hq : ∀ q, q.Prime → q ∣ n → f^[n / q] x ≠ x) {k : Nat} (hk : 0 < k) (hkn : k < n) : f^[k] x ≠ x := by
  intro hkx
  have hdn : Function.minimalPeriod f x ∣ n := Function.IsPeriodicPt.minimalPeriod_dvd hn
  have hdk : Function.minimalPeriod f x ∣ k := Function.IsPeriodicPt.minimalPeriod_dvd hkx
  obtain ⟨c, hc⟩ := hdn
  have hc1 : c ≠ 1 := fun h => by
    rw [h, Nat.mul_one] at hc
    exact absurd (Nat.le_of_dvd hk hdk) (by omega)
  obtain ⟨q, hprime, b, hb⟩ := Nat.exists_prime_and_dvd hc1
  have hquot : n / q = Function.minimalPeriod f x * b := by
    rw [hc, hb, Nat.mul_left_comm, Nat.mul_div_cancel_left _ hprime.pos]
  refine hq q hprime ⟨Function.minimalPeriod f x * b, by rw [hc, hb, Nat.mul_left_comm]⟩ ?_
  rw [hquot]
  exact (Function.isPeriodicPt_minimalPeriod f x).mul_const b

/-- Settles O50: 32767 = 7 * 31 * 151 advances return 1, and none of its quotients by a prime does. -/
theorem lfsrSequenceHasPeriod32767 : Obligations.LfsrSequenceHasPeriod32767 := by
  have hreturn : (lfsrNext false)^[32767] 1 = 1 := by
    rw [lfsrNext_iterate_eq_iff]
    decide +kernel
  refine ⟨hreturn, fun k hk hk' => iterate_ne_of_prime_quotients hreturn (fun q hprime hd => ?_) hk hk'⟩
  have hq : q = 7 ∨ q = 31 ∨ q = 151 := by
    rw [show 32767 = 7 * (31 * 151) from rfl, hprime.dvd_mul, hprime.dvd_mul,
      Nat.prime_dvd_prime_iff_eq hprime (by norm_num), Nat.prime_dvd_prime_iff_eq hprime (by norm_num),
      Nat.prime_dvd_prime_iff_eq hprime (by norm_num)] at hd
    exact hd
  rw [Ne, lfsrNext_iterate_eq_iff]
  rcases hq with rfl | rfl | rfl <;> decide +kernel

/-- Settles O51: 21 = 3 * 7 advances return 0x4AEE and neither 3 nor 7 do; a value before it that stood on the cycle
would make the one just before it return too. -/
theorem smallStepSequenceHasCycle21 : Obligations.SmallStepSequenceHasCycle21 := by
  have hreturn : (lfsrNext true)^[21] 0x4AEE = 0x4AEE := by
    rw [lfsrNext_iterate_eq_iff]
    decide
  have henter : (lfsrNext true)^[28] 1 = 0x4AEE := by
    rw [lfsrNext_iterate_eq_iff]
    decide
  refine ⟨henter, hreturn, fun k hk hk' => iterate_ne_of_prime_quotients hreturn (fun q hprime hd => ?_) hk hk',
    fun k hk j hj heq => ?_⟩
  · have hq : q = 3 ∨ q = 7 := by
      rwa [show 21 = 3 * 7 from rfl, hprime.dvd_mul, Nat.prime_dvd_prime_iff_eq hprime (by norm_num),
        Nat.prime_dvd_prime_iff_eq hprime (by norm_num)] at hd
    rw [Ne, lfsrNext_iterate_eq_iff]
    rcases hq with rfl | rfl <;> decide
  · have hfixed : (lfsrNext true)^[21] ((lfsrNext true)^[k] 1) = (lfsrNext true)^[k] 1 := by
      rw [heq, ← Function.iterate_add_apply, Nat.add_comm, Function.iterate_add_apply, hreturn]
    have hlast : (lfsrNext true)^[48] 1 = (lfsrNext true)^[27] 1 := by
      obtain ⟨d, hd⟩ := Nat.exists_eq_add_of_le (Nat.le_of_lt_succ hk)
      rw [show 48 = d + (21 + k) by omega, show 27 = d + k by omega, Function.iterate_add_apply,
        Function.iterate_add_apply _ 21, hfixed, ← Function.iterate_add_apply]
    rw [← BitVec.toNat_inj, lfsrNext_iterate_toNat, lfsrNext_iterate_toNat] at hlast
    revert hlast
    decide

end Sys2Proof.Laws
end

section
/-!
The family of the whole machine, invariants: good states (R24, R14), the operations that can be refused (R137), and the
fields that no operation reads (R17).
-/

namespace Sys2Proof.Laws

open Sys2Proof Sys2Proof.Machine

/-! Good states (R24). -/

theorem toneTrigger_good {T : ToneChannel} (h : T.Good) (trigger single : Bool) :
    (toneTrigger T trigger single).Good := by
  obtain ⟨hdiv, hphase, hlen, henv, hsweep⟩ := h
  cases trigger
  · exact ⟨hdiv, hphase, hlen, henv, hsweep⟩
  · exact ⟨hdiv, hphase, Nat.zero_le _, Nat.zero_le _, Nat.zero_le _⟩

/-- A trigger reseeds the LFSR, so the channel it starts has a register in range. -/
theorem noiseTrigger_good {N : NoiseChannel} (h : N.Good) (trigger single : Bool) :
    (noiseTrigger N trigger single).Good := by
  obtain ⟨hdiv, ⟨hlen, henv, hpre, hshift⟩, hnz, hmax⟩ := h
  cases trigger
  · exact ⟨hdiv, ⟨hlen, henv, hpre, hshift⟩, hnz, hmax⟩
  · have hseed : 1 ≤ (1#16).toNat ∧ (1#16).toNat ≤ 0x7FFF := by decide
    exact ⟨hdiv, ⟨Nat.zero_le _, Nat.zero_le _, Nat.zero_le _, Nat.zero_le _⟩, fun _ => hseed.1, hseed.2⟩

theorem mixerInit_good : MixerGood mixerInit := by decide

/-- A setting is no part of `Good`; a trigger and INIT give good counts. -/
theorem writes_good {i : Instr} {f : Mixer → Mixer} (hf : writes i = some f) {m : Mixer} (h : MixerGood m) :
    MixerGood (f m) := by
  obtain ⟨h1, h2, hn⟩ := h
  cases i with
  | nr14 => cases hf; exact ⟨toneTrigger_good h1 _ _, h2, hn⟩
  | nr24 => cases hf; exact ⟨h1, toneTrigger_good h2 _ _, hn⟩
  | nr44 => cases hf; exact ⟨h1, h2, noiseTrigger_good hn _ _⟩
  | init => cases hf; exact mixerInit_good
  | setScale target => cases hf; cases target <;> exact ⟨h1, h2, hn⟩
  | tick | next | ctick | cnext => cases hf
  | _ => cases hf; exact ⟨h1, h2, hn⟩

/-- Every completed operation keeps a good block good. -/
theorem exec_good {i : Instr} {s t : State} (h : exec i s = .next t) (hs : s.Good) : t.Good :=
  exec_keeps (P := MixerGood) h hs (fun _ hf => writes_good hf hs)
    (fun _ ⟨h1, h2, hn⟩ => ⟨toneTick_good h1, h2, hn⟩) (fun _ ⟨h1, h2, hn⟩ => ⟨h1, toneTick_good h2, hn⟩)
    (fun _ ⟨h1, h2, hn⟩ => ⟨h1, h2, noiseTick_good hn⟩)

/-- Settles O53: a step idles or completes an operation, and a completed operation keeps `Good`. -/
theorem goodIsKeptByEveryStep : Obligations.GoodIsKeptByEveryStep := by
  intro s t hs h
  rcases step_cases h with ⟨-, rfl⟩ | ⟨input, rest, i, -, -, hexec⟩
  · exact hs
  · exact exec_good hexec hs

/-- Settles O52: the reset values. -/
theorem resetIsGood : Obligations.ResetIsGood := by
  unfold Obligations.ResetIsGood
  decide

/-! Refusals (R137). -/

/-- Settles O54: writes complete in every state; of the pulls, whose channels are tickable in a good state, only NEXT
and CNEXT ask for more, an admitted rate. -/
theorem refusedExactlyOutsideTheContract : Obligations.RefusedExactlyOutsideTheContract := by
  intro i s hs
  have htick := mixerGood_tickable hs
  have hctick := channelGood_tickable hs
  cases i with
  | tick => exact ⟨fun _ => ⟨_, by rw [exec_tick, if_pos htick]⟩, fun h => by cases h⟩
  | ctick c => exact ⟨fun _ => ⟨_, by rw [exec_ctick, if_pos (hctick c)]⟩, fun h => by cases h⟩
  | next r => exact ⟨fun h => ⟨_, by rw [exec_next_admitted h, if_pos htick]⟩, fun h => exec_next_bad h s⟩
  | cnext c r => exact ⟨fun h => ⟨_, by rw [exec_cnext_admitted h, if_pos (hctick c)]⟩, fun h => exec_cnext_bad h c s⟩
  | _ => exact ⟨fun _ => ⟨_, exec_writes rfl s⟩, fun h => by cases h⟩

/-! The fields that no operation reads (R17). -/

/-- The channel with another `div_apu` and another `scale_amplitude`. -/
def blurTone (T : ToneChannel) (d : ClockDivider) (a : I32) : ToneChannel :=
  { T with divApu := d, scaleAmplitude := a }

theorem sweepUpdate_blur (T : ToneChannel) (d : ClockDivider) (a : I32) :
    sweepUpdate (blurTone T d a) = blurTone (sweepUpdate T) d a := by
  cases h : T.sweep.addition <;> simp only [sweepUpdate, blurTone, h] <;> rfl

theorem toneSweep_blur (T : ToneChannel) (d : ClockDivider) (a : I32) (sw : U32) :
    toneSweep (blurTone T d a) sw = blurTone (toneSweep T sw) d a := by
  cases he : T.sweep.enabled
  · rw [toneSweep_off sw he, toneSweep_off (T := blurTone T d a) sw he]
  · rw [toneSweep_on sw he, toneSweep_on (T := blurTone T d a) sw he]
    change (if (counterTick T.sweep.count T.sweep.time.toNat sw).1 then sweepUpdate (blurTone (countSweep T sw) d a)
      else blurTone (countSweep T sw) d a) = _
    rw [sweepUpdate_blur]
    exact (apply_ite (blurTone · d a) _ _ _).symm

theorem toneAdvance_blur (T : ToneChannel) (d : ClockDivider) (a : I32) :
    toneAdvance (blurTone T d a) = blurTone (toneAdvance T) d a := by
  have h : (toneSubclocks (tonePhase (blurTone T d a))).2 = blurTone (toneSubclocks (tonePhase T)).2 d a := rfl
  simp only [toneAdvance, h, toneSweep_blur]
  rfl

theorem toneTick_blur (T : ToneChannel) (d : ClockDivider) (a : I32) :
    toneTick (blurTone T d a) = ((toneTick T).1, blurTone (toneTick T).2 d a) := by
  cases h : T.running
  · rw [toneTick_stopped h, toneTick_stopped (T := blurTone T d a) h]
  · rw [toneTick_running h, toneTick_running (T := blurTone T d a) h, toneAdvance_blur]
    rfl

theorem toneTicks_blur (k : Nat) (T : ToneChannel) (d : ClockDivider) (a : I32) :
    toneTicks k (blurTone T d a) = ((toneTicks k T).1, blurTone (toneTicks k T).2 d a) := by
  induction k with
  | zero => rfl
  | succ k ih => rw [toneTicks_succ, toneTicks_succ, ih, toneTick_blur]

/-- The block with the two fields of both tone channels replaced. -/
def blurMixer (d1 d2 : ClockDivider) (a1 a2 : I32) (m : Mixer) : Mixer :=
  { m with tone1 := blurTone m.tone1 d1 a1, tone2 := blurTone m.tone2 d2 a2 }

section blur
variable (d1 d2 : ClockDivider) (a1 a2 : I32)

theorem mixerTick_blur (m : Mixer) : mixerTick (blurMixer d1 d2 a1 a2 m) =
    ((mixerTick m).1, blurMixer d1 d2 a1 a2 (mixerTick m).2) := by
  cases h : m.enabled
  · rw [mixerTick_off h, mixerTick_off (m := blurMixer d1 d2 a1 a2 m) h]
  · rw [mixerTick_on h, mixerTick_on (m := blurMixer d1 d2 a1 a2 m) h]
    simp only [tickChannels, blurMixer, toneTick_blur]
    rfl

theorem mixerTicks_blur (k : Nat) (m : Mixer) : mixerTicks k (blurMixer d1 d2 a1 a2 m) =
    ((mixerTicks k m).1, blurMixer d1 d2 a1 a2 (mixerTicks k m).2) := by
  induction k with
  | zero => rfl
  | succ k ih => rw [mixerTicks_succ, mixerTicks_succ, ih, mixerTick_blur]

theorem channelTicks_blur (m : Mixer) (c : Channel) (k : Nat) : channelTicks (blurMixer d1 d2 a1 a2 m) c k =
    ((channelTicks m c k).1, blurMixer d1 d2 a1 a2 (channelTicks m c k).2) := by
  cases c
  · simp only [channelTicks, blurMixer, toneTicks_blur]
  · simp only [channelTicks, blurMixer, toneTicks_blur]
  · rfl

theorem mixer_tickable_blur (m : Mixer) : (blurMixer d1 d2 a1 a2 m).tickable = m.tickable := rfl

theorem channelTickable_blur (m : Mixer) (c : Channel) :
    channelTickable (blurMixer d1 d2 a1 a2 m) c = channelTickable m c := by
  cases c <;> rfl

/-- The state with the two fields of both tone channels replaced. -/
def blurState (s : State) : State :=
  { s with mixer := blurMixer d1 d2 a1 a2 s.mixer }

/-- What one outcome says of the blurred state, given the outcome on the state itself. -/
def blurOutcome : Host.Outcome State Fault Refusal → Host.Outcome State Fault Refusal
  | .next t => .next (blurState d1 d2 a1 a2 t)
  | .fault r => .fault r
  | .refused r => .refused r

/-- A pull commutes with the change of the two fields. -/
theorem exec_pull_blur {i : Instr} (hi : writes i = none) (s : State) :
    exec i (blurState d1 d2 a1 a2 s) = blurOutcome d1 d2 a1 a2 (exec i s) := by
  cases i with
  | tick =>
    simp only [exec_tick, blurState, mixer_tickable_blur, mixerTick_blur]
    split_ifs <;> rfl
  | next r =>
    simp only [exec_next, blurState, mixer_tickable_blur, mixerTicks_blur]
    split_ifs <;> rfl
  | ctick c =>
    simp only [exec_ctick, blurState, channelTickable_blur, channelTicks_blur]
    split_ifs <;> rfl
  | cnext c r =>
    simp only [exec_cnext, blurState, channelTickable_blur, channelTicks_blur]
    split_ifs <;> rfl
  | _ => cases hi

/-- A write commutes with the change too, but INIT and SET_SCALE give the two fields values of their own. -/
theorem writes_blur {i : Instr} {f : Mixer → Mixer} (hf : writes i = some f) (m : Mixer) :
    ∃ e1 e2 b1 b2, f (blurMixer d1 d2 a1 a2 m) = blurMixer e1 e2 b1 b2 (f m) := by
  cases i with
  | init => cases hf; exact ⟨_, _, _, _, rfl⟩
  | setScale target v =>
    cases hf
    cases target
    · exact ⟨d1, d2, a1, a2, rfl⟩
    · exact ⟨d1, d2, v, a2, rfl⟩
    · exact ⟨d1, d2, a1, v, rfl⟩
  | tick | next | ctick | cnext => cases hf
  | _ => cases hf; exact ⟨d1, d2, a1, a2, rfl⟩

end blur

/-- Settles O59: a pull commutes with the change of the unread fields, so it also has the same result and refusals; a
write completes in both states. -/
theorem unreadFieldsAreInvisible : Obligations.UnreadFieldsAreInvisible := by
  intro i s d1 d2 a1 a2
  change (∀ t, exec i s = .next t → ∃ e1 e2 b1 b2, exec i (blurState d1 d2 a1 a2 s) = .next (blurState e1 e2 b1 b2 t)) ∧
    ∀ r, exec i s = .refused r → exec i (blurState d1 d2 a1 a2 s) = .refused r
  cases hw : writes i with
  | none =>
    rw [exec_pull_blur d1 d2 a1 a2 hw]
    exact ⟨fun t h => ⟨d1, d2, a1, a2, by rw [h]; rfl⟩, fun r h => by rw [h]; rfl⟩
  | some f =>
    rw [exec_writes hw, exec_writes hw]
    obtain ⟨e1, e2, b1, b2, hblur⟩ := writes_blur d1 d2 a1 a2 hw s.mixer
    refine ⟨fun t h => ⟨e1, e2, b1, b2, ?_⟩, fun r h => by cases h⟩
    cases h
    exact congrArg (fun m => Host.Outcome.next (s.answer m .none)) hblur

end Sys2Proof.Laws
end

section
/-!
The family of the whole machine, frames: what each operation may change (R14, R15, R18, R19, R20), and the
pseudo-operation TRIG (R56).
-/

namespace Sys2Proof.Laws

open Sys2Proof Sys2Proof.Machine

/-! Channel 2 has no sweep (R18). -/

theorem toneTick_unswept {T : ToneChannel} (h : T.sweep.enabled = false) :
    (toneTick T).2.sweep = T.sweep ∧ (toneTick T).2.gbfreq = T.gbfreq :=
  toneTick_keeps (P := fun U => U.sweep = T.sweep ∧ U.gbfreq = T.gbfreq) ⟨rfl, rfl⟩ fun _ =>
    ⟨(toneAdvance_unswept h).1, (toneAdvance_unswept h).2.1⟩

/-- The operations that give channel 2 a frequency (R18). -/
def SetsTone2Frequency (i : Instr) : Prop :=
  i = .init ∨ (∃ v, i = .nr23 v) ∨ ∃ trigger single x fhi, i = .nr24 trigger single x fhi

/-- A write keeps channel 2 unswept: NR24's trigger enables no sweep whose time is 0. -/
theorem writes_tone2Unswept {i : Instr} {f : Mixer → Mixer} (hf : writes i = some f) {m : Mixer}
    (ht : m.tone2.sweep.time = 0#3) (he : m.tone2.sweep.enabled = false) :
    ((f m).tone2.sweep.time = 0#3 ∧ (f m).tone2.sweep.enabled = false) ∧
    ((f m).tone2.gbfreq = m.tone2.gbfreq ∨ SetsTone2Frequency i) := by
  cases i with
  | init => cases hf; exact ⟨⟨rfl, rfl⟩, .inr (.inl rfl)⟩
  | nr23 v => cases hf; exact ⟨⟨ht, he⟩, .inr (.inr (.inl ⟨v, rfl⟩))⟩
  | nr24 trigger =>
    cases hf
    refine ⟨⟨ht, ?_⟩, .inr (.inr (.inr ⟨_, _, _, _, rfl⟩))⟩
    simp [toneSetFreqHigh, toneTrigger, sweepEnabledAfterTrigger, ht, he]
  | setScale target => cases hf; cases target <;> exact ⟨⟨ht, he⟩, .inl rfl⟩
  | tick | next | ctick | cnext => cases hf
  | _ => cases hf; exact ⟨⟨ht, he⟩, .inl rfl⟩

/-- Settles O55: an unswept channel's tick keeps its sweep unit and its frequency, and so does every write but three. -/
theorem tone2NeverSweeps : Obligations.Tone2NeverSweeps := by
  intro i s t ⟨ht, he⟩ h
  refine exec_keeps (P := fun m => (m.tone2.sweep.time = 0#3 ∧ m.tone2.sweep.enabled = false) ∧
    (m.tone2.gbfreq = s.mixer.tone2.gbfreq ∨ SetsTone2Frequency i)) h ⟨⟨ht, he⟩, .inl rfl⟩
    (fun f hf => writes_tone2Unswept hf ht he) (fun _ hu => hu) (fun u ⟨⟨hut, hue⟩, hug⟩ => ?_) fun _ hu => hu
  obtain ⟨hsweep, hfreq⟩ := toneTick_unswept hue
  simp only [hsweep, hfreq]
  exact ⟨⟨hut, hue⟩, hug⟩

/-! The shifts of the dividers (R14). -/

/-- The divider shifts of a tone channel. -/
def toneShifts (T : ToneChannel) : List U32 :=
  [T.divApu.shift, T.divSeq.shift, T.divSweep.shift, T.divLen.shift, T.divEnv.shift]

/-- The divider shifts of the noise channel. -/
def noiseShifts (N : NoiseChannel) : List U32 :=
  [N.divSeq.shift, N.divLen.shift, N.divEnv.shift]

/-- The divider shifts of the block. -/
def mixerShifts (m : Mixer) : List U32 :=
  toneShifts m.tone1 ++ toneShifts m.tone2 ++ noiseShifts m.noise

theorem toneTick_shifts (T : ToneChannel) : toneShifts (toneTick T).2 = toneShifts T :=
  toneTick_keeps (P := fun U => toneShifts U = toneShifts T) rfl fun _ => by simp [toneShifts]

theorem noiseTick_shifts (N : NoiseChannel) : noiseShifts (noiseTick N).2 = noiseShifts N :=
  noiseTick_keeps (P := fun U => noiseShifts U = noiseShifts N) rfl fun _ => by simp [noiseShifts]

theorem writes_shifts {i : Instr} {f : Mixer → Mixer} (hf : writes i = some f) (hi : i ≠ .init) (m : Mixer) :
    mixerShifts (f m) = mixerShifts m := by
  cases i with
  | init => exact absurd rfl hi
  | setScale target => cases hf; cases target <;> rfl
  | tick | next | ctick | cnext => cases hf
  | _ => cases hf; rfl

/-- Settles O56: a divider step keeps its divider's shift, and no write but INIT touches a divider. -/
theorem onlyInitSetsDividerShifts : Obligations.OnlyInitSetsDividerShifts := by
  intro i s t hi h
  change mixerShifts t.mixer = mixerShifts s.mixer
  refine exec_keeps (P := fun m => mixerShifts m = mixerShifts s.mixer) h rfl (fun f hf => writes_shifts hf hi _)
    (fun u hu => ?_) (fun u hu => ?_) fun u hu => ?_
  · rw [← hu, mixerShifts, toneTick_shifts]; rfl
  · rw [← hu, mixerShifts, toneTick_shifts]; rfl
  · rw [← hu, mixerShifts, noiseTick_shifts]; rfl

/-! Starting a channel (R15, R19, R21). -/

/-- Whether a channel runs. -/
def channelRunning (m : Mixer) : Channel → Bool
  | .tone1 => m.tone1.running
  | .tone2 => m.tone2.running
  | .noise => m.noise.running

/-- The operation is the write to the channel's trigger register with the trigger bit set. -/
def Triggers (i : Instr) : Channel → Prop
  | .tone1 => ∃ single x fhi, i = .nr14 true single x fhi
  | .tone2 => ∃ single x fhi, i = .nr24 true single x fhi
  | .noise => ∃ single x, i = .nr44 true single x

theorem writes_running {i : Instr} {f : Mixer → Mixer} (hf : writes i = some f) {m : Mixer} {c : Channel}
    (h : channelRunning m c = false) : channelRunning (f m) c = false ∨ Triggers i c := by
  cases i with
  | nr14 trigger single x fhi =>
    cases hf
    cases c
    · cases trigger
      · exact .inl h
      · exact .inr ⟨_, _, _, rfl⟩
    · exact .inl h
    · exact .inl h
  | nr24 trigger single x fhi =>
    cases hf
    cases c
    · exact .inl h
    · cases trigger
      · exact .inl h
      · exact .inr ⟨_, _, _, rfl⟩
    · exact .inl h
  | nr44 trigger single x =>
    cases hf
    cases c
    · exact .inl h
    · exact .inl h
    · cases trigger
      · exact .inl h
      · exact .inr ⟨_, _, rfl⟩
  | init => cases hf; cases c <;> exact .inl rfl
  | setScale target => cases hf; cases target <;> cases c <;> exact .inl h
  | tick | next | ctick | cnext => cases hf
  | _ => cases hf; cases c <;> exact .inl h

/-- A completed operation leaves a stopped channel stopped, or triggers it: a stopped channel's tick holds it. -/
theorem exec_running {i : Instr} {s t : State} (h : exec i s = .next t) {c : Channel}
    (hs : channelRunning s.mixer c = false) : channelRunning t.mixer c = false ∨ Triggers i c := by
  refine exec_keeps (P := fun m => channelRunning m c = false ∨ Triggers i c) h (.inl hs)
    (fun f hf => writes_running hf hs) ?_ ?_ ?_ <;> rintro u (hu | hu)
  · cases c
    · exact .inl (by rw [toneTick_stopped hu]; exact hu)
    · exact .inl hu
    · exact .inl hu
  · exact .inr hu
  · cases c
    · exact .inl hu
    · exact .inl (by rw [toneTick_stopped hu]; exact hu)
    · exact .inl hu
  · exact .inr hu
  · cases c
    · exact .inl hu
    · exact .inl hu
    · exact .inl (by rw [noiseTick_stopped hu]; exact hu)
  · exact .inr hu

/-- Settles O57: a channel that runs after the operation and did not before was triggered. -/
theorem onlyTriggersStartAChannel : Obligations.OnlyTriggersStartAChannel := by
  intro i s t h
  have hstart (c : Channel) (hs : channelRunning s.mixer c = false) (ht : channelRunning t.mixer c = true) :
      Triggers i c := (exec_running h hs).resolve_left (by simp [ht])
  exact ⟨hstart .tone1, hstart .tone2, hstart .noise⟩

/-! The settings (R15, R19, R20). -/

/-- The settings of a tone channel, and `divApu`. -/
def toneSettings (T : ToneChannel) : (BitVec 3 × Bool × BitVec 3) × (BitVec 6 × BitVec 2) ×
    (BitVec 4 × Bool × BitVec 3) × Bool × I32 × ClockDivider :=
  ((T.sweep.time, T.sweep.addition, T.sweep.shift), (T.len.length, T.duty), (T.env.initial, T.env.increase, T.env.n),
    T.len.repeats, T.scaleAmplitude, T.divApu)

/-- The settings of the noise channel. -/
def noiseSettings (N : NoiseChannel) : BitVec 6 × (BitVec 4 × Bool × BitVec 3) × (BitVec 4 × Bool × BitVec 3) × Bool :=
  (N.len.length, (N.env.initial, N.env.increase, N.env.n), (N.shiftClock, N.smallStep, N.prescale), N.len.repeats)

/-- The settings of the block. -/
def mixerSettings (m : Mixer) :=
  ((m.enabled, m.terminal, (m.volumeRight, m.volumeLeft), m.scaleAmplitude), toneSettings m.tone1,
    toneSettings m.tone2, noiseSettings m.noise)

theorem toneTick_settings (T : ToneChannel) : toneSettings (toneTick T).2 = toneSettings T :=
  toneTick_keeps (P := fun U => toneSettings U = toneSettings T) rfl fun _ => by simp [toneSettings]

theorem noiseTick_settings (N : NoiseChannel) : noiseSettings (noiseTick N).2 = noiseSettings N :=
  noiseTick_keeps (P := fun U => noiseSettings U = noiseSettings N) rfl fun _ => by simp [noiseSettings]

/-- A pull changes no setting. -/
theorem pull_settings {i : Instr} {s t : State} (hi : writes i = none) (h : exec i s = .next t) :
    mixerSettings t.mixer = mixerSettings s.mixer := by
  refine exec_keeps (P := fun m => mixerSettings m = mixerSettings s.mixer) h rfl
    (fun f hf => by rw [hi] at hf; cases hf) (fun u hu => ?_) (fun u hu => ?_) fun u hu => ?_
  · rw [← hu, mixerSettings, toneTick_settings]; rfl
  · rw [← hu, mixerSettings, toneTick_settings]; rfl
  · rw [← hu, mixerSettings, noiseTick_settings]; rfl

/-- Settles O58: a pull changes no setting, and each write at most those of its own register. -/
theorem settingsHaveOneWriter : Obligations.SettingsHaveOneWriter := by
  intro i s t h hi m m'
  cases hw : writes i with
  | none =>
    have hkept := pull_settings hw h
    simp only [mixerSettings, toneSettings, noiseSettings, Prod.mk.injEq] at hkept
    simp [m, m', hkept]
  | some f =>
    have hm : m' = f m := exec_writes_mixer hw h
    rw [hm]
    cases i with
    | init => exact absurd rfl hi
    | setScale target => cases hw; cases target <;> simp [setScaleAmplitude]
    | tick | next | ctick | cnext => cases hw
    | _ =>
      cases hw
      simp [toneSetSweep, toneSetLengthDuty, toneSetEnvelope, setVolumeEnvelope, toneSetFreqLow, toneSetFreqHigh,
        toneTrigger, noiseSetLength, noiseSetEnvelope, noiseSetPoly, noiseTrigger, mixerSetVolume, mixerSetRouting,
        mixerSetPower]

/-! The pseudo-operation TRIG (R56). -/

theorem run_succ {s t : State} (k : Nat) (h : step s = .next t) :
    Sys2Proof.core.run (k + 1) s = Sys2Proof.core.run k t := by
  have hstep : Sys2Proof.core.step s = .next t := h
  simp only [Host.Core.run, hstep]

/-- Two writes issued to an empty stream are applied one after the other. -/
theorem run_two_writes {c1 c2 : Call} {i1 i2 : Instr} {f1 f2 : Mixer → Mixer} {s : State} (hs : s.stream = [])
    (hd1 : decodeCall c1 = .ok i1) (hd2 : decodeCall c2 = .ok i2) (hw1 : writes i1 = some f1)
    (hw2 : writes i2 = some f2) :
    Sys2Proof.core.run 2 (s.issue [c1, c2]) = .next (s.answer (f2 (f1 s.mixer)) .none) := by
  have h1 : step (s.issue [c1, c2]) = .next (({ s with stream := [.one c2] }).answer (f1 s.mixer) .none) := by
    have hstream : (s.issue [c1, c2]).stream = [.one c1, .one c2] := by simp [State.issue, hs]
    rw [step_ok hstream hd1, exec_writes hw1]; rfl
  have h2 : step (({ s with stream := [.one c2] }).answer (f1 s.mixer) .none) =
      .next (s.answer (f2 (f1 s.mixer)) .none) := by
    rw [step_ok (input := .one c2) rfl hd2, exec_writes hw2, ← hs]; rfl
  rw [run_succ 1 h1, run_succ 0 h2]
  rfl

/-- The second byte that TRIG writes (R56). -/
def trigByte (single : Bool) (fhi : BitVec 3) : Byte :=
  0x80 ||| singleBit single ||| fhi.setWidth 8

/-- The fields of TRIG's second byte (R48). -/
theorem trigByte_fields : ∀ (single : Bool) (fhi : BitVec 3), bit (trigByte single fhi) 7 = true ∧
    bit (trigByte single fhi) 6 = single ∧ field (trigByte single fhi) 0 3 = fhi := by
  decide

/-- TRIG's two FLO and FHI writes leave the frequency they cut (R49, R56). -/
theorem mergeFreq_fields (g f : BitVec 11) : mergeFreqHigh (mergeFreqLow g (field f 0 8)) (field f 8 3) = f := by
  rw [← freqFields_append g, mergeFreqLow_append, mergeFreqHigh_append, freqFields_append]

/-- The channel after the two writes of TRIG. -/
theorem trig_tone (T : ToneChannel) (f : BitVec 11) (single : Bool) :
    let U := toneSetFreqHigh (toneSetFreqLow T (field f 0 8)) true single (field f 8 3)
    U.running = true ∧ U.gbfreq = f ∧ U.len.repeats = !single ∧ U.sweep.count = 0 ∧ U.len.count = 0 ∧ U.env.count = 0 :=
  ⟨rfl, mergeFreq_fields T.gbfreq f, rfl, rfl, rfl, rfl⟩

/-- Settles O60: the two writes decode to FLO and FHI with the trigger bit, and run one after the other. -/
theorem trigSetsTheFrequencyAndRuns : Obligations.TrigSetsTheFrequencyAndRuns := by
  intro f single s hs
  obtain ⟨htrigger, hsingle, hfhi⟩ := trigByte_fields single (field f 8 3)
  constructor
  · have h1 : decodeCall (writeCall 0xFF13 (field f 0 8)) = .ok (.nr13 (field f 0 8)) :=
      congrArg Except.ok (decodeWord_nr13 _)
    have h2 : decodeCall (writeCall 0xFF14 (trigByte single (field f 8 3))) =
        .ok (.nr14 true single (field (trigByte single (field f 8 3)) 3 3) (field f 8 3)) := by
      refine (congrArg Except.ok (decodeWord_nr14 _)).trans ?_
      rw [htrigger, hsingle, hfhi]
    obtain ⟨hrun, hf, hrep, hsw, hlen, henv⟩ := trig_tone s.mixer.tone1 f single
    exact ⟨_, run_two_writes hs h1 h2 rfl rfl, hs, hrun, hf, hrep, hsw, hlen, henv, rfl, rfl⟩
  · have h1 : decodeCall (writeCall 0xFF18 (field f 0 8)) = .ok (.nr23 (field f 0 8)) :=
      congrArg Except.ok (decodeWord_nr23 _)
    have h2 : decodeCall (writeCall 0xFF19 (trigByte single (field f 8 3))) =
        .ok (.nr24 true single (field (trigByte single (field f 8 3)) 3 3) (field f 8 3)) := by
      refine (congrArg Except.ok (decodeWord_nr24 _)).trans ?_
      rw [htrigger, hsingle, hfhi]
    obtain ⟨hrun, hf, hrep, hsw, hlen, henv⟩ := trig_tone s.mixer.tone2 f single
    exact ⟨_, run_two_writes hs h1 h2 rfl rfl, hs, hrun, hf, hrep, hsw, hlen, henv, rfl, rfl⟩

end Sys2Proof.Laws
end
